-- ==== Sys2Proof/Word.lean ====
section
/-! DEFINITION. The plain words of the single-wire bus block: levels, register widths and the
two roles (spec/00_scope.md R12; spec/10_state.md R20 to R23). Times, durations and counts are plain natural
numbers: R11, and spec/00_scope.md section 6 (arithmetic is exact unless a rule states a modulus). -/

namespace Sys2Proof

/-- A logic level, one bit: `false` is low (0), `true` is high (1); R12. -/
abbrev Level := Bool

/-- A signed value register of `VALUE_W` = 32 bits, read as two's complement; R32. -/
abbrev Value := BitVec 32

/-- The accumulator of received bits, `SR_W` = 32 bits, unsigned; R30. -/
abbrev ShiftReg := BitVec 32

/-- A bus address, unsigned 4 bits, every value an ordinary address; R22, R61. -/
abbrev BusAddr := BitVec 4

/-- The 24 bits of a data frame; R89. -/
abbrev Payload := BitVec 24

/-- The two roles a node can be given at initialisation; R23. -/
inductive Role where
  | listener
  | controller
  deriving DecidableEq, Repr

/-- The role flag's encoding, Listener = 0 and Controller = 1; R23. -/
def Role.flag : Role → Nat
  | .listener => 0
  | .controller => 1

end Sys2Proof
end

