-- ==== Sys2Proof/Config.lean ====
section
/-! DEFINITION. The parameters of the step relation (spec/00_scope.md R6 to R10, spec/10_state.md R42):
the seven constants, the policy for masked edges, and the open polarity of the receive pin. -/

namespace Sys2Proof

/-- What becomes of a receive transition while interrupts are disabled
(`MASKED_EDGE_POLICY`; R38, R208). -/
inductive EdgePolicy where
  /-- The transition is lost; the spec's decision. -/
  | drop
  /-- One transition is remembered and delivered when interrupts are enabled; the stated alternative. -/
  | latchOne
  deriving DecidableEq, Repr

/-- The configuration record of R10: the seven constants of R6 and R8 with the stated values as
defaults, and the two parameters of the receive side. -/
structure Config where
  /-- `BIT_PERIOD`, R6. -/
  bitPeriod : Nat := 80
  /-- `PULSE_PERIOD`, R6. -/
  pulsePeriod : Nat := 25
  /-- `GLITCH_T` = 3 × `PULSE_PERIOD`, R6. -/
  glitchT : Nat := 75
  /-- `FRAME_T` = 2 × `BIT_PERIOD`, R6. -/
  frameT : Nat := 160
  /-- `REQ_TIMEOUT` = 10 ms, R6. -/
  reqTimeout : Nat := 10000
  /-- `ADDR_W`, R8. -/
  addrW : Nat := 4
  /-- `DATA_W`, R8. -/
  dataW : Nat := 24
  /-- `MASKED_EDGE_POLICY`, default `drop`; R38. -/
  maskedEdges : EdgePolicy := .drop
  /-- `RX_INVERT`: whether a receive pin carries the complement of the wire; OPEN in the spec, R223. -/
  rxInvert : Level
  deriving DecidableEq, Repr

/-- `RX_INVERT` as the device has it. The spec leaves it OPEN (R223, spec/92_eei_decisions.md D9), so it
is a free value: nothing in Lean can say which of the two it is. -/
opaque Config.openRxInvert : Level

/-- The constants the spec states, with a chosen receive polarity. -/
def Config.standard (rxInvert : Level) : Config := { rxInvert := rxInvert }

/-- `BODY` = `BIT_PERIOD` − `PULSE_PERIOD`, R9. -/
def Config.body (c : Config) : Nat := c.bitPeriod - c.pulsePeriod

/-- The frame width a role completes on: `ADDR_W` for a listener, `DATA_W` for a controller; R96. -/
def Config.frameW (c : Config) : Role → Nat
  | .listener => c.addrW
  | .controller => c.dataW

/-- What the spec asks of the constants: a pulse lasts some time and at most a third of a bit (R7), the
thresholds are the multiples R6 states, both frames carry a bit, and a data frame fits the 32-bit
registers (R30, R32). -/
def Config.wf (c : Config) : Bool :=
  decide (0 < c.pulsePeriod ∧ 3 * c.pulsePeriod ≤ c.bitPeriod ∧ c.glitchT = 3 * c.pulsePeriod ∧
    c.frameT = 2 * c.bitPeriod ∧ 0 < c.addrW ∧ 0 < c.dataW ∧ c.addrW ≤ 32 ∧ c.dataW ≤ 32)

end Sys2Proof
end

