-- ==== Sys2Proof/Syntax.lean ====
section
/-! DEFINITION. The operations of the block, one constructor for each row of spec/opcode_table.json:
four wire symbols, two frames, the decoder's event and the four host commands (R14, R80 to R102). -/

namespace Sys2Proof

/-- One operation. Operands have the ranges the spec's contracts give them; which of them a wire
pattern or a command word can carry is `Instr.wellFormed`. -/
inductive Instr where
  /-- Symbol `BIT1`: high for the body, low for the marker; R81. -/
  | bit1
  /-- Symbol `BIT0`: low for the body, high for the marker; R82. -/
  | bit0
  /-- Symbol `WAKE`: high for one pulse period; R83, R159. -/
  | wake
  /-- Symbol `RELEASE`: the transmit pin returns to low; R84, R152. -/
  | release
  /-- Frame `ADDR`: the slots of an address, most significant bit first; R88. -/
  | addr (a : BusAddr)
  /-- Frame `DATA`: the slots of a payload, most significant bit first; R89. -/
  | data (d : Payload)
  /-- Event `EDGE`: a transition of the receive pin to `level`; its time is the node's clock; R97, R110. -/
  | edge (level : Level)
  /-- Command `INIT(rxPin, txPin, addr, role)`; R99, R194. -/
  | init (rxPin txPin addr : Nat) (role : Role)
  /-- Command `SETP(value)`, any 32-bit value; R100, R190. -/
  | setp (value : Value)
  /-- Command `REQ(target)`; R101, R170. -/
  | req (target : Nat)
  /-- Command `XMIT(value, width)`; R102, R150. -/
  | xmit (value width : Nat)
  deriving DecidableEq, Repr

end Sys2Proof
end

