-- ==== Sys2Proof/WellFormed.lean ====
section
/-! DEFINITION. Which operations an encoding of spec/30_encoding.md can carry: the field widths of the
command word (R98 to R102). Symbols, frames and the event have no ill-formed terms. -/

namespace Sys2Proof

/-- The value is the sign extension of its low 24 bits, so a `SETP` word can carry it; R100. -/
def fitsSetp (v : Value) : Bool :=
  decide (-8388608 ≤ v.toInt ∧ v.toInt ≤ 8388607)

/-- Every operand fits its field: pins 8 bits, address 4 (R99); value sign-extended from 24 (R100);
target 4 (R101); value 24 and width 5 (R102). -/
def Instr.wellFormed : Instr → Bool
  | .bit1 => true
  | .bit0 => true
  | .wake => true
  | .release => true
  | .addr _ => true
  | .data _ => true
  | .edge _ => true
  | .init rxPin txPin own _ => decide (rxPin < 256 ∧ txPin < 256 ∧ own < 16)
  | .setp value => fitsSetp value
  | .req target => decide (target < 16)
  | .xmit value width => decide (value < 16777216 ∧ width < 32)

end Sys2Proof
end

