-- ==== Sys2Proof/Decode.lean ====
section
/-! DEFINITION. The encodings of spec/30_encoding.md and spec/opcode_table.json: tick strings of the
wire symbols (R85), frames (R88, R89), the event record (R97) and the host command word (R98 to R103);
the decoder, total and rejecting by name, and the encoder. -/

namespace Sys2Proof

/-- The four kinds of encoding the spec separates (spec/30_encoding.md, opening paragraph). They are told
apart by where they stand, not by their bits: on the wire, as a frame, at the receive pin, at the
command port. -/
inductive Format where
  | symbol
  | frame
  | event
  | command
  deriving DecidableEq, Repr

/-- An encoded operation: its kind, how many bits it has, and the bits as one number whose most
significant bit is the leftmost (earliest) character of the table's pattern. -/
structure Code where
  format : Format
  nbits : Nat
  bits : Nat
  deriving DecidableEq, Repr

/-- Why an encoding is rejected. -/
inductive DecodeError where
  /-- The number has more bits than the encoding says. -/
  | tooManyBits
  /-- The tick string is none of the four symbols of R85. -/
  | unknownSymbol
  /-- A frame has 4 or 24 slots and no other length; R96. -/
  | badFrameWidth
  /-- The event record is one bit; R97. -/
  | badEventWidth
  /-- A command word is 32 bits; R98. -/
  | badCommandWidth
  /-- `op` is 000, 101, 110 or 111; R103. -/
  | reservedOp
  /-- A must-be-zero bit is set; R103. -/
  | mustBeZero
  deriving DecidableEq, Repr

/-- Field `[lo + len − 1 : lo]` of a word, as a number. -/
def field (w lo len : Nat) : Nat := w / 2 ^ lo % 2 ^ len

/-- The integer of a 24-bit pattern in two's complement (`sint_24`, spec/00_scope.md section 6). -/
def sint24 (p : Nat) : Int := if p < 8388608 then (p : Int) else (p : Int) - 16777216

/-- The role a role flag names; R23, R99. -/
def roleOfFlag (b : Nat) : Role := if b = 0 then .listener else .controller

/-- A wire symbol from its ticks, earliest first; R85. -/
def decodeSymbol (nbits bits : Nat) : Except DecodeError Instr :=
  if nbits = 16 ∧ bits = 0xFFE0 then .ok .bit1
  else if nbits = 16 ∧ bits = 0x001F then .ok .bit0
  else if nbits = 5 ∧ bits = 0x1F then .ok .wake
  else if nbits = 1 ∧ bits = 0 then .ok .release
  else .error .unknownSymbol

/-- A frame from its slots' bits; R88, R89. -/
def decodeFrame (nbits bits : Nat) : Except DecodeError Instr :=
  if nbits = 4 then .ok (.addr (BitVec.ofNat 4 bits))
  else if nbits = 24 then .ok (.data (BitVec.ofNat 24 bits))
  else .error .badFrameWidth

/-- The decoder's event from its one-bit record; R97. -/
def decodeEvent (nbits bits : Nat) : Except DecodeError Instr :=
  if nbits = 1 then .ok (.edge (decide (bits = 1))) else .error .badEventWidth

/-- A host command from its word; R98 to R103. -/
def decodeCommand (nbits cw : Nat) : Except DecodeError Instr :=
  if nbits = 32 then
    match field cw 29 3 with
    | 1 =>
      if field cw 24 5 = 0 ∧ field cw 5 3 = 0 then
        .ok (.init (field cw 16 8) (field cw 8 8) (field cw 0 4) (roleOfFlag (field cw 4 1)))
      else .error .mustBeZero
    | 2 =>
      if field cw 24 5 = 0 then .ok (.setp (BitVec.ofInt 32 (sint24 (field cw 0 24))))
      else .error .mustBeZero
    | 3 =>
      if field cw 24 5 = 0 ∧ field cw 4 20 = 0 then .ok (.req (field cw 0 4))
      else .error .mustBeZero
    | 4 => .ok (.xmit (field cw 0 24) (field cw 24 5))
    | _ => .error .reservedOp
  else .error .badCommandWidth

/-- The operation an encoding stands for, or why it stands for none. -/
def decode (c : Code) : Except DecodeError Instr :=
  if c.bits < 2 ^ c.nbits then
    match c.format with
    | .symbol => decodeSymbol c.nbits c.bits
    | .frame => decodeFrame c.nbits c.bits
    | .event => decodeEvent c.nbits c.bits
    | .command => decodeCommand c.nbits c.bits
  else .error .tooManyBits

/-- A command word from its `op`, `w` and `arg` fields; R98. -/
def commandWord (op w arg : Nat) : Code :=
  { format := .command, nbits := 32, bits := op * 2 ^ 29 + w * 2 ^ 24 + arg }

/-- The encoding of a well-formed operation; R85, R88, R89, R97, R98 to R102. -/
def encode : Instr → Code
  | .bit1 => { format := .symbol, nbits := 16, bits := 0xFFE0 }
  | .bit0 => { format := .symbol, nbits := 16, bits := 0x001F }
  | .wake => { format := .symbol, nbits := 5, bits := 0x1F }
  | .release => { format := .symbol, nbits := 1, bits := 0 }
  | .addr a => { format := .frame, nbits := 4, bits := a.toNat }
  | .data d => { format := .frame, nbits := 24, bits := d.toNat }
  | .edge level => { format := .event, nbits := 1, bits := level.toNat }
  | .init rxPin txPin addr role =>
    commandWord 1 0 (rxPin * 2 ^ 16 + txPin * 2 ^ 8 + role.flag * 2 ^ 4 + addr)
  | .setp value => commandWord 2 0 (value.toNat % 2 ^ 24)
  | .req target => commandWord 3 0 target
  | .xmit value width => commandWord 4 width value

/-- The encoding a row of spec/opcode_table.json stands for, from the row's bits rounded up to whole
bytes. Four rows share one byte (`WAKE`, `RELEASE`, `ADDR`, `EDGE`) and the table keeps them apart by
their format only; the byte alone is read as `WAKE` at 11111, `RELEASE` at 0, `EDGE` at 1, and
`ADDR` from 2 to 15 (log entry 13). -/
def codeOfTableWord (nbits w : Nat) : Code :=
  match nbits with
  | 32 => { format := .command, nbits := 32, bits := w }
  | 24 => { format := .frame, nbits := 24, bits := w }
  | 16 => { format := .symbol, nbits := 16, bits := w }
  | _ =>
    if w = 0 then { format := .symbol, nbits := 1, bits := 0 }
    else if w = 1 then { format := .event, nbits := 1, bits := 1 }
    else if w < 16 then { format := .frame, nbits := 4, bits := w }
    else { format := .symbol, nbits := 5, bits := w }

/-- The instruction the decoder reads from a word of the opcode table, if it reads one. -/
def decodeTableWord (nbits w : Nat) : Option Instr :=
  match decode (codeOfTableWord nbits w) with
  | .ok i => some i
  | .error _ => none

end Sys2Proof
end

