-- ==== Sys2Proof/Machine/State.lean ====
section
/-! DEFINITION. Everything the machine holds (spec/10_state.md, spec/60_exceptions.md sections 6 to 8):
the state of one node, the nodes on the wire, the parameters, and what the outside world has yet to do.
The block has no memory (spec/20_memory.md R60), so none is here. -/

namespace Sys2Proof.Machine

open Sys2Proof

/-- One waveform segment: a level held for a duration (`emit`, spec/00_scope.md section 6). -/
structure Seg where
  level : Level
  dur : Nat
  deriving DecidableEq, Repr

/-- A change of the transmit pin that a transmission in progress has scheduled, on the node's clock. -/
structure TxChange where
  time : Nat
  level : Level
  deriving DecidableEq, Repr

/-- What a node is doing; R39. -/
inductive Activity where
  /-- The main context is free. -/
  | idle
  /-- A waveform is being driven; it ends at this time. -/
  | transmitting (endsAt : Nat)
  /-- `REQ` polls for a response until this time. -/
  | waiting (deadline : Nat)
  deriving DecidableEq, Repr

/-- How the transmission in progress ends. -/
inductive Ending where
  /-- A bare symbol or frame: the pin keeps the last level until the next symbol or `RELEASE`. -/
  | hold
  /-- `XMIT`: interrupts are enabled and this activity goes on; R153, R173. -/
  | close (next : Activity)
  deriving DecidableEq, Repr

/-- `BusConfig`; R21. -/
structure BusConfig where
  receivePin : Nat
  transmitPin : Nat
  ownAddress : BusAddr
  role : Role
  deriving DecidableEq, Repr

/-- `FrameDecodeState`; R25 to R30. -/
structure FrameDecodeState where
  lastEdgeTimestamp : Nat
  bitsAccumulated : Nat
  ignoreRemaining : Nat
  shiftRegister : ShiftReg
  deriving DecidableEq, Repr

/-- `PayloadRegisters`; R32 to R35. -/
structure PayloadRegisters where
  outgoing : Value
  incoming : Value
  receivedFlag : Bool
  deriving DecidableEq, Repr

/-- The state of one node: the record of R20, the microsecond counter of R216, and the model's own
bookkeeping (`cfgSet`, `sched`, `ending`, `result`, `maskedThrough`; log entries 3, 4, 6 and 28). -/
structure Node where
  cfg : BusConfig
  /-- Whether `INIT` has set `cfg`; before that it is unset and the node is inert on the wire (R240). -/
  cfgSet : Bool
  dec : FrameDecodeState
  pay : PayloadRegisters
  /-- The interrupt enable; R36. -/
  ie : Bool
  /-- The level on the transmit pin; R37. -/
  tx : Level
  /-- A masked edge is latched; R38. -/
  pend : Bool
  /-- What the node is doing; R39. -/
  act : Activity
  /-- The node's microsecond counter, 0 at the node's reset; R216, R243. -/
  clock : Nat
  /-- The transmit pin's changes still to come in the transmission in progress. -/
  sched : List TxChange
  /-- How the transmission in progress ends. -/
  ending : Ending
  /-- What the last `REQ` returned to the main context, once it has; R101. -/
  result : Option Value
  /-- When the node's last closed transmission ended: that instant still belongs to the masked interval;
  R153, R171, R211. -/
  maskedThrough : Option Nat
  deriving DecidableEq, Repr

/-- An operation the outside world presents to a node: node 0 is the state's own, node `k + 1` the
`k`-th peer. -/
structure Issue where
  node : Nat
  code : Code
  deriving DecidableEq, Repr

/-- One line of a stimulus script (R105): at this time, this operation is presented to this node. -/
structure Arrival where
  time : Nat
  issue : Issue
  deriving DecidableEq, Repr

/-- The whole machine: one node and its peers on one wire (R220, R221). -/
structure State where
  /-- The parameters of the step relation; no step writes them (R42). -/
  par : Config
  /-- The time of the scenario, in which `inbox` is written. -/
  now : Nat
  /-- The wire level the nodes have last been shown; R222, R225. -/
  wire : Level
  /-- The node that operations act on. -/
  self : Node
  /-- The other nodes on the wire; R220. -/
  peers : List Node
  /-- What the outside world will present, and when. -/
  inbox : List Arrival
  /-- The operation presented now; the next step takes it. -/
  port : Option Issue
  deriving DecidableEq, Repr

/-- There is no fault: "there is no fatal/abort path" (R13, R200). The type has no constructor, so no
step can answer one. -/
inductive Fault where
  deriving DecidableEq, Repr

/-- Why an operation has no meaning (R13, R206). A refusal supports no claim about what follows, so each
is safe. -/
inductive Refusal where
  /-- Raised by `exec` for an instruction that has no meaning yet; no arm uses it. Safe. -/
  | notModelled (mnemonic : String)
  /-- Raised by the step for an encoding that stands for no operation; R103, R206. Safe. -/
  | reservedEncoding (why : DecodeError)
  /-- Raised by a host operation, symbol or frame presented while the node is transmitting or waiting;
  R39, R196, R206. Safe. -/
  | busy
  /-- Raised by the step for an operation presented to a node that is not on the wire: the scenario
  itself is ill-formed. Safe. -/
  | noSuchNode (node : Nat)
  deriving DecidableEq, Repr

/-- A node at power-on, before `INIT`: decoder and payload fields zero or false, transmit pin low,
nothing pending, idle, interrupts disabled, configuration unset, clock at 0; R240, R243. -/
def Node.powerOn : Node where
  cfg := { receivePin := 0, transmitPin := 0, ownAddress := 0, role := .listener }
  cfgSet := false
  dec := { lastEdgeTimestamp := 0, bitsAccumulated := 0, ignoreRemaining := 0, shiftRegister := 0 }
  pay := { outgoing := 0, incoming := 0, receivedFlag := false }
  ie := false
  tx := false
  pend := false
  act := .idle
  clock := 0
  sched := []
  ending := .hold
  result := none
  maskedThrough := none

/-- The machine at power-on: one node, alone on a low wire, at time 0, with nothing presented to it. The
receive polarity is the open parameter. -/
def State.reset : State where
  par := Config.standard Config.openRxInvert
  now := 0
  wire := false
  self := Node.powerOn
  peers := []
  inbox := []
  port := none

end Sys2Proof.Machine
end

