-- ==== Sys2Proof/Machine/Flags.lean ====
section
/-! DEFINITION. The flags and who may write them: the interrupt enable and the latched edge
(spec/10_state.md R36, R38), and the received flag (R35). -/

namespace Sys2Proof.Machine

open Sys2Proof

/-- `ie <- 0`; R36. -/
def Node.disableInterrupts (n : Node) : Node := { n with ie := false }

/-- `ie <- 1`, whatever it was: enabling is absolute and holds no nesting depth; R36, R154. -/
def Node.enableInterrupts (n : Node) : Node := { n with ie := true }

/-- What a masked transition leaves behind: nothing, or a latched edge, as the policy says; R38, R208. -/
def Node.maskEdge (par : Config) (n : Node) : Node :=
  match par.maskedEdges with
  | .drop => n
  | .latchOne => { n with pend := true }

/-- Taking the latched edge clears it; R38. -/
def Node.clearPending (n : Node) : Node := { n with pend := false }

/-- The decoder delivers a value: `incoming` is written and `receivedFlag` set, without a test of the
flag; R35, R135. -/
def Node.deliver (v : Value) (n : Node) : Node :=
  { n with pay := { n.pay with incoming := v, receivedFlag := true } }

/-- The consumer's read of `incoming` and clear of `receivedFlag`, one indivisible action, and its
result returned to the main context; R71, R175. -/
def Node.consume (n : Node) : Node :=
  { n with pay := { n.pay with receivedFlag := false }, result := some n.pay.incoming }

end Sys2Proof.Machine
end

