-- ==== Sys2Proof/Machine/Operands.lean ====
section
/-! DEFINITION. How operands are formed: the bits a transmission sends (spec/30_encoding.md R95,
spec/42_bit_transmitter.md R156, R157), the truncation of the response and the sign extension of a
capture (R94, R132, R136), and the address `INIT` keeps (spec/44_payload_setter_and_init.md R194). -/

namespace Sys2Proof.Machine

open Sys2Proof

/-- `trunc_w` of a register: its low `w` bits, unsigned; R95, R132. -/
def truncTo (w : Nat) (v : Value) : Nat := v.toNat % 2 ^ w

/-- `sint_w`: the integer of a `w`-bit pattern in two's complement; spec/00_scope.md section 6, R136. -/
def sintOf (w p : Nat) : Int := if p.testBit (w - 1) then (p : Int) - 2 ^ w else (p : Int)

/-- The captured value: the low `w` bits of the shift register, sign-extended to the value register;
R94, R135. -/
def captureValue (w : Nat) (sr : ShiftReg) : Value := BitVec.ofInt 32 (sintOf w (sr.toNat % 2 ^ w))

/-- `addr[3:0]`, the part of `INIT`'s operand that is kept; R194. -/
def ownAddressOf (addr : Nat) : BusAddr := BitVec.ofNat 4 addr

/-- The shift of R116: one bit in at the least significant end, modulo `2^SR_W`. -/
def shiftIn (sr : ShiftReg) (level : Level) : ShiftReg :=
  BitVec.ofNat 32 (2 * sr.toNat + level.toNat)

/-- `BIT1` and `BIT0` as segments: the body at the bit's level, then the marker at its inverse; R80 to R82. -/
def bitSegs (par : Config) (b : Level) : List Seg :=
  [{ level := b, dur := par.body }, { level := !b, dur := par.pulsePeriod }]

/-- `WAKE` as a segment: high for one pulse period; R83, R159. -/
def wakeSegs (par : Config) : List Seg := [{ level := true, dur := par.pulsePeriod }]

/-- `Waveform(value, width)`: the bits from `width − 1` down to 0, each as its symbol; R157. -/
def waveform (par : Config) (value : Nat) : Nat → List Seg
  | 0 => []
  | w + 1 => bitSegs par (value.testBit w) ++ waveform par value w

/-- What a request drives: the wake pulse and at once the address frame; R90, R170. -/
def requestSegs (par : Config) (target : Nat) : List Seg :=
  wakeSegs par ++ waveform par target par.addrW

/-- How long a run of segments lasts. -/
def duration : List Seg → Nat
  | [] => 0
  | g :: rest => g.dur + duration rest

/-- The pin changes of a run of segments that starts at `t`, one for each segment. -/
def changesFrom (t : Nat) : List Seg → List TxChange
  | [] => []
  | g :: rest => { time := t, level := g.level } :: changesFrom (t + g.dur) rest

end Sys2Proof.Machine
end

