-- ==== Sys2Proof/Machine/Ops.lean ====
section
/-! DEFINITION. The shared operations of one node: driving the transmit pin
(spec/42_bit_transmitter.md), taking the edge interrupt and returning from it (spec/60_exceptions.md
R207 to R213), the end of a transmission and of a request's wait (R153, R174 to R177), and applying a
node operation to the state. -/

namespace Sys2Proof.Machine

open Sys2Proof

/-- A waveform is being driven. -/
def Node.isTransmitting (n : Node) : Bool :=
  match n.act with
  | .transmitting _ => true
  | _ => false

/-- The pin change that releases the line at the end of a closed transmission; R152. -/
def releaseAt (t : Nat) : Ending → List TxChange
  | .hold => []
  | .close _ => [{ time := t, level := false }]

/-- Drive a run of segments from now on: the first level at once, the others on schedule. An empty run
drives nothing. -/
def Node.drive (n : Node) (segs : List Seg) (e : Ending) : Node :=
  match segs with
  | [] => n
  | g :: rest =>
    { n with
      tx := g.level
      act := .transmitting (n.clock + duration segs)
      sched := changesFrom (n.clock + g.dur) rest ++ releaseAt (n.clock + duration segs) e
      ending := e }

/-- The end of a closed transmission: the line is released, interrupts are enabled unconditionally, and
`next` goes on; R152, R153. The masked interval is closed: it takes in this instant; R153, R171, R211. -/
def Node.closeTransmission (n : Node) (next : Activity) : Node :=
  Node.enableInterrupts
    { n with tx := false, act := next, sched := [], ending := .hold, maskedThrough := some n.clock }

/-- A closed transmission of a run of segments: interrupts off, the segments, release, interrupts on,
and then `next`. An empty run ends where it starts; R150, R153, R156. -/
def Node.transmit (n : Node) (segs : List Seg) (next : Activity) : Node :=
  match segs with
  | [] => n.disableInterrupts.closeTransmission next
  | g :: rest => n.disableInterrupts.drive (g :: rest) (.close next)

/-- `XMIT(value, width)` started now, with `next` to follow; R150. -/
def Node.xmit (par : Config) (n : Node) (value width : Nat) (next : Activity) : Node :=
  n.transmit (waveform par value width) next

/-- The pin is free for a bare symbol: the node is idle, or a bare symbol has ended and holds the pin;
slots follow one another with no gap (R80). -/
def Node.symbolBoundary (n : Node) : Bool :=
  match n.act with
  | .idle => true
  | .transmitting t => decide (n.ending = .hold) && n.sched.isEmpty && decide (t ≤ n.clock)
  | .waiting _ => false

/-- The last instant of a closed transmission, which has ended but whose masked interval is closed; R153,
R171, R211. -/
def Node.atMaskedEnd (n : Node) : Bool :=
  match n.maskedThrough with
  | some t => decide (n.clock ≤ t)
  | none => false

/-- The node's decoder is bound to its pin, its interrupts are enabled and no waveform of its own is
being driven: the handler can run; R39, R207, R240. -/
def Node.canHandle (n : Node) : Bool := n.cfgSet && n.ie && !n.isTransmitting

/-- A receive transition is taken: the handler can run, and the instant belongs to no masked interval;
R110, R171, R211. -/
def Node.takesEdge (n : Node) : Bool := n.canHandle && !n.atMaskedEnd

/-- A receive transition of a bound node is masked: interrupts are disabled, or this is the last instant of
a closed transmission; R171, R208, R211. -/
def Node.masksEdge (n : Node) : Bool := n.cfgSet && (!n.ie || n.atMaskedEnd)

/-- Taking the one interrupt, a transition of the receive pin, and returning from it. Entry saves nothing
and changes no field (R212); an unmasked transition runs the handler whole, a masked one is lost or
latched (R208), and a node that `INIT` has not bound to its pin sees nothing (R240). There is no return
instruction and nothing to restore: what the handler leaves is the state after (R213). -/
def Node.takeInterrupt (par : Config) (handler : Node → Node) (n : Node) : Node :=
  if n.takesEdge then handler n
  else if n.masksEdge then n.maskEdge par
  else n

/-- Apply the next pin change of the transmission in progress, if it is due; R151, R225. -/
def Node.applyChange (n : Node) : Node :=
  match n.sched with
  | [] => n
  | c :: rest => if c.time ≤ n.clock then { n with tx := c.level, sched := rest } else n

/-- A closed transmission has driven everything, the release included, and its time has come. -/
def Node.transmissionOver (n : Node) : Bool :=
  match n.act, n.ending with
  | .transmitting t, .close _ => n.sched.isEmpty && decide (t ≤ n.clock)
  | _, _ => false

/-- End a closed transmission that is over; R152, R153, R173. -/
def Node.finishTransmission (n : Node) : Node :=
  if n.transmissionOver then
    match n.ending with
    | .close next => n.closeTransmission next
    | .hold => n
  else n

/-- A request waits and the flag is set: the wait is over; R174. -/
def Node.answered (n : Node) : Bool :=
  match n.act with
  | .waiting _ => n.pay.receivedFlag
  | _ => false

/-- A request waits without the flag and its deadline has come: the wait is over; R174, where the flag wins
the tie. -/
def Node.timedOut (n : Node) : Bool :=
  match n.act with
  | .waiting deadline => !n.pay.receivedFlag && decide (deadline ≤ n.clock)
  | _ => false

/-- Step 5 of an answered request: `incoming` is returned and the flag cleared, and the main context is
free again; R175, R177. -/
def Node.takeAnswer (n : Node) : Node :=
  if n.answered then { n.consume with act := .idle } else n

/-- Step 5 of a request that timed out: 0 is returned and the main context is free again; R176, R177. -/
def Node.timeOut (n : Node) : Node :=
  if n.timedOut then { n with act := .idle, result := some 0 } else n

/-- The main context may begin an operation: the node is idle; R39, R192, R206. -/
def Node.isIdle (n : Node) : Bool := decide (n.act = .idle)

/-- The millisecond clock: the microsecond clock divided by 1000; R217. -/
def Node.millis (n : Node) : Nat := n.clock / 1000

/-- Let `d` microseconds pass on the node's counter; R11, R216. -/
def Node.tick (d : Nat) (n : Node) : Node := { n with clock := n.clock + d }

/-- The state with its own node changed and everything else kept. -/
def State.onSelf (f : Node → Node) (s : State) : State := { s with self := f s.self }

/-- A host operation on the state's own node: it begins only when the node is idle; R39, R206. -/
def State.hostOp (f : Node → Node) (s : State) : Host.Outcome State Fault Refusal :=
  if s.self.isIdle then .next (s.onSelf f) else .refused .busy

/-- A bare symbol or frame on the state's own node: it begins only at a symbol boundary; R39, R80. -/
def State.symbolOp (f : Node → Node) (s : State) : Host.Outcome State Fault Refusal :=
  if s.self.symbolBoundary then .next (s.onSelf f) else .refused .busy

end Sys2Proof.Machine
end

