-- ==== Sys2Proof/Machine/FrameDecoder.lean ====
section
/-! DEFINITION. The Frame Decoder's step `EDGE(now, level)` (spec/40_frame_decoder.md R110 to R119) and
its last part, the address matcher and dispatcher (spec/41_address_dispatch.md R130 to R136). -/

namespace Sys2Proof.Machine

open Sys2Proof

/-- Which rule ends a decoder step; R106. -/
inductive EdgeLabel where
  /-- Too close to the reference; R112. -/
  | glitch
  /-- Frame timeout: the edge becomes the new frame's reference; R114. -/
  | sync
  /-- Discarded by collision suppression; R115. -/
  | skip
  /-- A bit, with no frame completed; R116. -/
  | bit
  /-- A listener's own address; R132. -/
  | matched
  /-- Another address; R133. -/
  | missed
  /-- A controller's 24 bits; R135. -/
  | captured
  deriving DecidableEq, Repr

/-- `delta`, the time since the reference edge; R111. -/
def Node.delta (n : Node) : Nat := n.clock - n.dec.lastEdgeTimestamp

/-- The shift register after this edge's bit; R116. -/
def Node.shifted (n : Node) (level : Level) : ShiftReg := shiftIn n.dec.shiftRegister level

/-- The accumulated bits are the node's address, compared as unsigned integers; R131. -/
def Node.addressed (n : Node) (level : Level) : Bool :=
  decide ((n.shifted level).toNat = n.cfg.ownAddress.toNat)

/-- The dispatch on frame completion: equality of the new count with the width of the role's frame;
R130. -/
def Node.dispatchLabel (par : Config) (n : Node) (level : Level) : EdgeLabel :=
  match n.cfg.role with
  | .listener =>
    if n.dec.bitsAccumulated + 1 = par.addrW then
      if n.addressed level then .matched else .missed
    else .bit
  | .controller => if n.dec.bitsAccumulated + 1 = par.dataW then .captured else .bit

/-- The classes in the order they are tested: glitch, timeout, suppression, bit; R110, R210. -/
def Node.edgeLabel (par : Config) (n : Node) (level : Level) : EdgeLabel :=
  if n.delta < par.glitchT then .glitch
  else if par.frameT < n.delta then .sync
  else if 0 < n.dec.ignoreRemaining then .skip
  else n.dispatchLabel par level

/-- `bitsAccumulated` and `shiftRegister` reset together, with the reference at this edge; R113, R134. -/
def Node.frameDone (n : Node) : Node :=
  { n with dec := { n.dec with
      lastEdgeTimestamp := n.clock, bitsAccumulated := 0, shiftRegister := 0 } }

/-- `SYNC`: the three fields are cleared and the edge becomes the reference; R114. -/
def Node.onSync (n : Node) : Node :=
  { n with dec := { lastEdgeTimestamp := n.clock, bitsAccumulated := 0, ignoreRemaining := 0, shiftRegister := 0 } }

/-- `SKIP`: one edge fewer to discard; R115. -/
def Node.onSkip (n : Node) : Node :=
  { n with dec := { n.dec with
      lastEdgeTimestamp := n.clock, ignoreRemaining := n.dec.ignoreRemaining - 1 } }

/-- `BIT`: the level is shifted in and counted; R116. -/
def Node.onBit (level : Level) (n : Node) : Node :=
  { n with dec := { n.dec with
      lastEdgeTimestamp := n.clock
      bitsAccumulated := n.dec.bitsAccumulated + 1
      shiftRegister := n.shifted level } }

/-- `MATCH`: the low bits of `outgoing`, read once, are transmitted from this instant on, inside the
handler; what the main context was doing goes on afterwards; R132, R134, R180. -/
def Node.onMatch (par : Config) (n : Node) : Node :=
  n.frameDone.xmit par (truncTo par.dataW n.pay.outgoing) par.dataW n.act

/-- `MISS`: the next `DATA_W` accepted edges are another listener's; R133. -/
def Node.onMiss (par : Config) (n : Node) : Node :=
  { n.frameDone with dec := { n.frameDone.dec with ignoreRemaining := par.dataW } }

/-- `DATA`: the sign-extended frame is delivered; R135. -/
def Node.onData (par : Config) (level : Level) (n : Node) : Node :=
  n.frameDone.deliver (captureValue par.dataW (n.shifted level))

/-- The decoder step, `now` being the node's clock; R110. -/
def Node.edge (par : Config) (level : Level) (n : Node) : Node :=
  match n.edgeLabel par level with
  | .glitch => n
  | .sync => n.onSync
  | .skip => n.onSkip
  | .bit => n.onBit level
  | .matched => n.onMatch par
  | .missed => n.onMiss par
  | .captured => n.onData par level

/-- A transition of the receive pin to `level`: the edge interrupt with the decoder as its handler; R110,
R224. -/
def Node.onTransition (par : Config) (level : Level) (n : Node) : Node :=
  n.takeInterrupt par (Node.edge par level)

/-- A latched edge waits and the handler can run: `ie` is 1 again, and the delivery is at that very
instant; R38. -/
def Node.pendingReady (n : Node) : Bool := n.pend && n.canHandle

/-- Deliver the latched edge, with the level the pin has now; R38. -/
def Node.takePending (par : Config) (level : Level) (n : Node) : Node :=
  if n.pendingReady then n.clearPending.edge par level else n

/-- `EDGE`: a transition of the node's receive pin, at the node's clock; R97, R110. -/
def execEdge (level : Level) (s : State) : Host.Outcome State Fault Refusal :=
  .next (s.onSelf (Node.onTransition s.par level))

end Sys2Proof.Machine
end

