-- ==== Sys2Proof/Machine/Bus.lean ====
section
/-! DEFINITION. Several nodes on one wire (spec/60_exceptions.md R220 to R225): the wire's level, a round
of edges, the pin changes and endings that come due, and the passing of time (R11). -/

namespace Sys2Proof.Machine

open Sys2Proof

/-- Every node on the wire, the state's own first. -/
def State.nodes (s : State) : List Node := s.self :: s.peers

/-- One node changes; node 0 is the state's own. -/
def State.atNode (k : Nat) (f : Node → Node) (s : State) : State :=
  match k with
  | 0 => s.onSelf f
  | j + 1 => { s with peers := s.peers.modify j f }

/-- Every node does the same thing at the same instant; R225. -/
def State.mapNodes (f : Node → Node) (s : State) : State :=
  { s with self := f s.self, peers := s.peers.map f }

/-- What a node contributes to the wire: its transmit pin, once `INIT` has made the pin an output; R222,
R240, R244. -/
def Node.drivesHigh (n : Node) : Bool := n.cfgSet && n.tx

/-- The wire is the OR of all transmit pins; R222. -/
def State.busLevel (s : State) : Level := s.nodes.any Node.drivesHigh

/-- The receive pins' level for a wire level, the same polarity at every node; R223. -/
def rxLevel (par : Config) (wire : Level) : Level := xor wire par.rxInvert

/-- The wire has been evaluated anew and has changed: every node is shown the transition; R224, R225. -/
def State.wireRound (s : State) : State :=
  { s with wire := s.busLevel }.mapNodes (Node.onTransition s.par (rxLevel s.par s.busLevel))

/-- Every latched edge that can be taken is taken; R38. -/
def State.deliverPending (s : State) : State :=
  s.mapNodes (Node.takePending s.par (rxLevel s.par s.wire))

/-- All pin changes due now are applied together; R225. -/
def State.applyChanges (s : State) : State := s.mapNodes Node.applyChange

/-- All closed transmissions that are over end; R153. -/
def State.finishTransmissions (s : State) : State := s.mapNodes Node.finishTransmission

/-- All answered waits end; R174, R175. -/
def State.takeAnswers (s : State) : State := s.mapNodes Node.takeAnswer

/-- All waits whose deadline has come without an answer end; R174, R176. -/
def State.timeOuts (s : State) : State := s.mapNodes Node.timeOut

/-- Let `d` microseconds pass for the scenario and for every node's counter; R11, R220. -/
def State.tick (d : Nat) (s : State) : State :=
  { s with now := s.now + d }.mapNodes (Node.tick d)

/-- A pin change of this node is due. -/
def Node.changeDue (n : Node) : Bool :=
  match n.sched with
  | [] => false
  | c :: _ => decide (c.time ≤ n.clock)

/-- How long until something of the node's own happens: the next pin change, the end of a closed
transmission, the deadline of a wait; R11. DESIGN CHOICE (log entries 5 and 26): the end of a bare symbol's
or frame's last segment is no event, because the pin holds its level there and nothing changes; time does
not run to it by itself. Unsafe for claims about how far time runs after a bare symbol. -/
def Node.delays (n : Node) : List Nat :=
  match n.sched with
  | c :: _ => [c.time - n.clock]
  | [] =>
    match n.act, n.ending with
    | .transmitting t, .close _ => [t - n.clock]
    | .waiting deadline, _ => [deadline - n.clock]
    | _, _ => []

/-- How long until the next event of any node or of the outside world, if there is one. -/
def State.nextDelay (s : State) : Option Nat :=
  (s.nodes.flatMap Node.delays ++ s.inbox.map fun a => a.time - s.now).min?

/-- The state's own node and the `k`-th peer change places; node 0 is the own one. -/
def State.focus (k : Nat) (s : State) : Option State :=
  match k with
  | 0 => some s
  | j + 1 =>
    match s.peers[j]? with
    | none => none
    | some n => some { s with self := n, peers := s.peers.set j s.self }

/-- Undo `focus`. -/
def State.unfocus (k : Nat) (s : State) : State := (s.focus k).getD s

end Sys2Proof.Machine
end

