-- ==== Sys2Proof/Machine/Commands.lean ====
section
/-! DEFINITION. The four operations of the main context: `INIT` and `SETP`
(spec/44_payload_setter_and_init.md), `REQ` (spec/43_controller_request.md) and the host's `XMIT`
(spec/42_bit_transmitter.md R150, R158). Each begins only when the node is idle (R39, R206). -/

namespace Sys2Proof.Machine

open Sys2Proof

/-- The state `INIT` leaves: configuration from its operands, decoder and payload fields zero, pin low,
nothing pending, idle, interrupts enabled. `INIT` is the node's reset (R196), so the microsecond counter reads
0 after it (spec/92_eei_decisions.md D8, R26, R216; log entry 7). R194, R241. -/
def Node.initialise (rxPin txPin addr : Nat) (role : Role) (n : Node) : Node :=
  { n with
    cfg := { receivePin := rxPin, transmitPin := txPin, ownAddress := ownAddressOf addr, role := role }
    cfgSet := true
    dec := { lastEdgeTimestamp := 0, bitsAccumulated := 0, ignoreRemaining := 0, shiftRegister := 0 }
    pay := { outgoing := 0, incoming := 0, receivedFlag := false }
    tx := false
    pend := false
    act := .idle
    clock := 0
    sched := []
    ending := .hold
    maskedThrough := none
    ie := true }

/-- `SETP`: the whole register, between disabling and enabling interrupts; R190, R191. -/
def Node.setPayload (value : Value) (n : Node) : Node :=
  let masked := n.disableInterrupts
  let written := { masked with pay := { masked.pay with outgoing := value } }
  written.enableInterrupts

/-- `REQ`: interrupts off, wake pulse, address frame, release, interrupts on, and then the wait, which
ends `REQ_TIMEOUT` after the transmission does. No result stands until the operation ends; R170 to R174. -/
def Node.request (par : Config) (target : Nat) (n : Node) : Node :=
  let segs := requestSegs par target
  Node.transmit { n with result := none } segs (.waiting (n.clock + duration segs + par.reqTimeout))

/-- `INIT(rxPin, txPin, addr, role)`; R99, R194, R196. -/
def execInit (rxPin txPin addr : Nat) (role : Role) (s : State) : Host.Outcome State Fault Refusal :=
  s.hostOp (Node.initialise rxPin txPin addr role)

/-- `SETP(value)`; R100, R190, R192. -/
def execSetp (value : Value) (s : State) : Host.Outcome State Fault Refusal :=
  s.hostOp (Node.setPayload value)

/-- `REQ(target)`; R101, R170. Only `target[3:0]` is sent (R173). -/
def execReq (target : Nat) (s : State) : Host.Outcome State Fault Refusal :=
  s.hostOp (Node.request s.par target)

/-- `XMIT(value, width)` as a host operation; R102, R150, R158. -/
def execXmit (value width : Nat) (s : State) : Host.Outcome State Fault Refusal :=
  s.hostOp fun n => n.xmit s.par value width .idle

end Sys2Proof.Machine
end

