-- ==== Sys2Proof/Machine/Symbols.lean ====
section
/-! DEFINITION. The four wire symbols driven on the transmit pin (spec/30_encoding.md R80 to R84,
spec/42_bit_transmitter.md R151, R152, R159) and the two frames made of them (R88, R89). None of them
writes a flag (log entry 5). -/

namespace Sys2Proof.Machine

open Sys2Proof

/-- `BIT1`: high for the body, then low for the marker; R81. -/
def execBit1 (s : State) : Host.Outcome State Fault Refusal :=
  s.symbolOp fun n => n.drive (bitSegs s.par true) .hold

/-- `BIT0`: low for the body, then high for the marker; R82. -/
def execBit0 (s : State) : Host.Outcome State Fault Refusal :=
  s.symbolOp fun n => n.drive (bitSegs s.par false) .hold

/-- `WAKE`: high for one pulse period, with no return to low after it; R83, R159. -/
def execWake (s : State) : Host.Outcome State Fault Refusal :=
  s.symbolOp fun n => n.drive (wakeSegs s.par) .hold

/-- `RELEASE`: the transmit pin goes to its idle low level and no transmission is in progress; R84,
R152. -/
def execRelease (s : State) : Host.Outcome State Fault Refusal :=
  s.symbolOp fun n => { n with tx := false, act := .idle, sched := [], ending := .hold }

/-- `ADDR`: `ADDR_W` slots carrying the address, most significant bit first; R88. -/
def execAddr (a : BusAddr) (s : State) : Host.Outcome State Fault Refusal :=
  s.symbolOp fun n => n.drive (waveform s.par a.toNat s.par.addrW) .hold

/-- `DATA`: `DATA_W` slots carrying the payload, most significant bit first; R89. -/
def execData (d : Payload) (s : State) : Host.Outcome State Fault Refusal :=
  s.symbolOp fun n => n.drive (waveform s.par d.toNat s.par.dataW) .hold

end Sys2Proof.Machine
end

