-- ==== Sys2Proof/Machine/Dispatch.lean ====
section
/-! DEFINITION. One arm for each operation (spec/opcode_table.json). -/

namespace Sys2Proof.Machine

open Sys2Proof

-- The meaning of each operation, as it acts on the state's own node.
def exec (i : Instr) (s : State) : Host.Outcome State Fault Refusal :=
  match i with
  | .bit1 => Sys2Proof.Machine.execBit1 s
  | .bit0 => Sys2Proof.Machine.execBit0 s
  | .wake => Sys2Proof.Machine.execWake s
  | .release => Sys2Proof.Machine.execRelease s
  | .addr a => Sys2Proof.Machine.execAddr a s
  | .data d => Sys2Proof.Machine.execData d s
  | .edge level => Sys2Proof.Machine.execEdge level s
  | .init rxPin txPin addr role => Sys2Proof.Machine.execInit rxPin txPin addr role s
  | .setp value => Sys2Proof.Machine.execSetp value s
  | .req target => Sys2Proof.Machine.execReq target s
  | .xmit value width => Sys2Proof.Machine.execXmit value width s

end Sys2Proof.Machine
end

