-- ==== Sys2Proof/Machine/Schedule.lean ====
section
/-! DEFINITION. Which event is next (spec/60_exceptions.md R211, R225; log entry 8): the order of what
happens at one instant, and the moving of presented operations to the port. -/

namespace Sys2Proof.Machine

open Sys2Proof

/-- What the machine does next, in the order of precedence at one instant. -/
inductive Phase where
  /-- The operation at the port runs. -/
  | issue
  /-- The wire has changed: a round of edges. -/
  | wire
  /-- Latched edges are delivered. -/
  | pending
  /-- Scheduled pin changes are applied. -/
  | change
  /-- A presented edge is due. -/
  | stimulus
  /-- Transmissions end. -/
  | finish
  /-- Answered waits end. -/
  | answer
  /-- A node's due operations change its pin at this instant: its first one is presented. -/
  | drive
  /-- A wait that timed out ends, at a node whose due operations then change its pin. -/
  | yield
  /-- All waits that timed out end. -/
  | timeout
  /-- A presented operation is due, and none changes a pin at this instant. -/
  | command
  /-- Time passes to the next event. -/
  | advance
  /-- Nothing is scheduled: nothing changes. -/
  | quiet
  deriving DecidableEq, Repr

/-- A presented operation whose time has come. -/
def State.due (s : State) (a : Arrival) : Bool := decide (a.time ≤ s.now)

/-- A presented receive transition whose time has come. -/
def State.dueEdge (s : State) (a : Arrival) : Bool :=
  s.due a && decide (a.issue.code.format = .event)

/-- A presented operation of node `k`, not a receive transition, whose time has come. -/
def State.dueAt (k : Nat) (s : State) (a : Arrival) : Bool :=
  s.due a && decide (a.issue.node = k) && decide (a.issue.code.format ≠ .event)

/-- Move the first presented operation that satisfies `p` to the port. -/
def State.present (p : Arrival → Bool) (s : State) : State :=
  match s.inbox.find? p with
  | none => s
  | some a => { s with inbox := s.inbox.erase a, port := some a.issue }

/-- Run one after the other at node `n`, the operations of these codes change the node's pin at once.
DESIGN CHOICE (log entries 8 and 10): only the pin counts. A bare `RELEASE` of a pin that is low already
changes none, so under `latchOne` an edge that it frees, and a response that this edge starts, come after
the deadline tests of that instant. Unsafe for claims about that instant. -/
def State.changesPin (s : State) (n : Node) : List Code → Bool
  | [] => false
  | c :: rest =>
    match decode c with
    | .error _ => false
    | .ok i =>
      match exec i { s with self := n } with
      | .next t => t.self.tx != n.tx || s.changesPin t.self rest
      | _ => false

/-- The operations due at node `k` would change its pin now, were the node `n`. -/
def State.wouldDrive (s : State) (k : Nat) (n : Node) : Bool :=
  s.changesPin n ((s.inbox.filter (s.dueAt k)).map fun a => a.issue.code)

/-- The number of the first node of which `p` holds. -/
def State.firstNode (p : Nat → Node → Bool) (s : State) : Option Nat :=
  (List.range s.nodes.length).find? fun k =>
    match s.nodes[k]? with
    | some n => p k n
    | none => false

/-- The first node whose due operations change its pin now. -/
def State.driver (s : State) : Option Nat := s.firstNode s.wouldDrive

/-- The first node whose wait timed out and whose due operations change its pin once that wait has ended. -/
def State.yielder (s : State) : Option Nat :=
  s.firstNode fun k n => n.timedOut && s.wouldDrive k n.timeOut

/-- The next event. The wire's changes, scheduled pin changes, presented edges and the operations that change
a pin at once come before a deadline is tested and before the operations that change no pin: edges first
(R211), a flag before a deadline (R174), scheduled pin changes before those that start now (R225). A node
whose own operations wait for its deadline is tested ahead of the others. That an edge which a bare `RELEASE`
of a low pin frees under `latchOne`, and the response it starts, follow the deadline tests is the model's
choice (log entries 8 and 10). -/
def State.phase (s : State) : Phase :=
  if s.port.isSome then .issue
  else if s.wire != s.busLevel then .wire
  else if s.nodes.any Node.pendingReady then .pending
  else if s.nodes.any Node.changeDue then .change
  else if s.inbox.any s.dueEdge then .stimulus
  else if s.nodes.any Node.transmissionOver then .finish
  else if s.nodes.any Node.answered then .answer
  else if s.driver.isSome then .drive
  else if s.yielder.isSome then .yield
  else if s.nodes.any Node.timedOut then .timeout
  else if s.inbox.any s.due then .command
  else if s.nextDelay.isSome then .advance
  else .quiet

/-- Let time pass to the next event. -/
def State.advance (s : State) : State := s.tick (s.nextDelay.getD 0)

/-- The state after an event other than the running of an operation. -/
def State.event (s : State) : Phase → State
  | .issue => s
  | .wire => s.wireRound
  | .pending => s.deliverPending
  | .change => s.applyChanges
  | .stimulus => s.present s.dueEdge
  | .finish => s.finishTransmissions
  | .answer => s.takeAnswers
  | .drive =>
    match s.driver with
    | some k => s.present (s.dueAt k)
    | none => s
  | .yield =>
    match s.yielder with
    | some k => s.atNode k Node.timeOut
    | none => s
  | .timeout => s.timeOuts
  | .command => s.present s.due
  | .advance => s.advance
  | .quiet => s

/-- The state with the port emptied: the operation has been taken. -/
def State.takePort (s : State) : State := { s with port := none }

/-- The state with a word of the opcode table presented to its own node. -/
def State.presentWord (s : State) (nbits w : Nat) : State :=
  { s with port := some { node := 0, code := codeOfTableWord nbits w } }

end Sys2Proof.Machine
end

