-- ==== Sys2Proof/Machine/Step.lean ====
section
/-! DEFINITION. One step: the operation at the port runs, or the next event happens. -/

namespace Sys2Proof.Machine

open Sys2Proof

/-- Run an operation on one of the nodes: node 0 is the state's own; a peer changes places with it while
the operation runs. -/
def runOn (k : Nat) (i : Instr) (s : State) : Host.Outcome State Fault Refusal :=
  match s.focus k with
  | none => .refused (.noSuchNode k)
  | some focused =>
    match exec i focused with
    | .next t => .next (t.unfocus k)
    | .fault r => .fault r
    | .refused r => .refused r

/-- Decode the operation at the port and run it; an encoding that stands for none is refused (R103). -/
def runPort (q : Issue) (s : State) : Host.Outcome State Fault Refusal :=
  match decode q.code with
  | .ok i => runOn q.node i s.takePort
  | .error e => .refused (.reservedEncoding e)

/-- One step of the machine. -/
def step (s : State) : Host.Outcome State Fault Refusal :=
  match s.port with
  | some q => runPort q s
  | none => .next (s.event s.phase)

/-- The state whose very next step runs the instruction of that word: the word stands at the port. -/
def State.withFetchWord (s : State) (nbits w : Nat) : State := s.presentWord nbits w

end Sys2Proof.Machine
end

