-- ==== Sys2Proof/Safety.lean ====
section
/-! DEFINITION. What the claims about the machine speak of: the invariants of a node and of the bus, the
pin changes of a run of slots (spec/30_encoding.md R86), and the reception of a run of edges
(spec/40_frame_decoder.md R120, R92). -/

namespace Sys2Proof.Machine

open Sys2Proof

/-- The decoder's fields are consistent: the reference is no later than the clock (R111), the count is
short of the role's frame width (R27), the count to discard is at most `DATA_W` and 0 in a controller
(R29), and the shift register holds no more bits than were counted (R30). -/
def Node.DecoderInv (par : Config) (n : Node) : Prop :=
  n.dec.lastEdgeTimestamp ≤ n.clock ∧
  n.dec.bitsAccumulated < par.frameW n.cfg.role ∧
  n.dec.ignoreRemaining ≤ par.dataW ∧
  (n.cfg.role = .controller → n.dec.ignoreRemaining = 0) ∧
  n.dec.shiftRegister.toNat < 2 ^ n.dec.bitsAccumulated

/-- The payload registers are consistent: `incoming` is a `DATA_W`-bit value (R34), and a listener never
receives one (R215). -/
def Node.PayloadInv (par : Config) (n : Node) : Prop :=
  -(2 ^ (par.dataW - 1)) ≤ n.pay.incoming.toInt ∧ n.pay.incoming.toInt < 2 ^ (par.dataW - 1) ∧
  (n.cfg.role = .listener → n.pay.receivedFlag = false ∧ n.pay.incoming = 0)

/-- The transmit pin is low and nothing is scheduled unless a transmission is in progress (R37); during a
closed one interrupts are disabled (R153); under `drop` nothing is ever latched (R38). -/
def Node.PinInv (par : Config) (n : Node) : Prop :=
  (n.isTransmitting = false → n.tx = false ∧ n.sched = []) ∧
  (n.isTransmitting = true → n.ending ≠ .hold → n.ie = false) ∧
  (par.maskedEdges = .drop → n.pend = false)

/-- The pin changes to come are in order, none is in the past, none comes after the end of the
transmission, a closed transmission has not overrun its end (R151, R155), and none has ended in the
future. -/
def Node.TimelineInv (n : Node) : Prop :=
  n.sched.Pairwise (fun a b => a.time ≤ b.time) ∧
  (∀ c ∈ n.sched, n.clock ≤ c.time) ∧
  (∀ t, n.act = .transmitting t → ∀ c ∈ n.sched, c.time ≤ t) ∧
  (∀ t, n.act = .transmitting t → n.ending ≠ .hold → n.clock ≤ t) ∧
  (∀ t, n.maskedThrough = some t → t ≤ n.clock)

/-- A node in good order. -/
def Node.Inv (par : Config) (n : Node) : Prop :=
  n.DecoderInv par ∧ n.PayloadInv par ∧ n.PinInv par ∧ n.TimelineInv

/-- A bus in good order: the parameters are as the spec asks, and every node is in good order. -/
def State.Inv (s : State) : Prop := s.par.wf = true ∧ ∀ n ∈ s.nodes, n.Inv s.par

/-- The pin changes of `width` slots carrying the low bits of `value`, the first slot starting at `t`,
after the first slot's own start: entry `2k` is the marker of slot `k`, entry `2k − 1` the start of slot
`k`; R86, R151, R157. -/
def slotChanges (par : Config) (t : Nat) (value width : Nat) : List TxChange :=
  (List.range (2 * width - 1)).map fun j =>
    if j % 2 = 0 then
      { time := t + par.bitPeriod * (j / 2) + par.body, level := !value.testBit (width - 1 - j / 2) }
    else
      { time := t + par.bitPeriod * ((j + 1) / 2), level := value.testBit (width - 1 - (j + 1) / 2) }

/-- A node receives a run of transitions of its pin, each given by the time since the one before and the
level after it. -/
def Node.receive (par : Config) : List (Nat × Level) → Node → Node
  | [], n => n
  | (d, level) :: rest, n => Node.receive par rest ((n.tick d).onTransition par level)

/-- Every gap of the run is consecutive-bit timing: neither a glitch nor a frame timeout; R118. -/
abbrev BitTimed (par : Config) (run : List (Nat × Level)) : Prop :=
  ∀ e ∈ run, par.glitchT ≤ e.1 ∧ e.1 ≤ par.frameT

/-- The number a run of bits spells, first bit most significant; R92. -/
def bitsValue : List Level → Nat
  | [] => 0
  | b :: rest => b.toNat * 2 ^ rest.length + bitsValue rest

/-- What a receive pin sees of a run of pin changes, the pin's own level being `level` since time `since`:
a transition for each change that is one, after the gap to the one before, at the receive pin's
polarity; R86, R223. -/
def transitions (par : Config) : Nat → Level → List TxChange → List (Nat × Level)
  | _, _, [] => []
  | since, level, c :: rest =>
    if c.level = level then transitions par since level rest
    else (c.time - since, rxLevel par c.level) :: transitions par c.time c.level rest

/-- The decoder is bound to its pin, interrupts are enabled and the node drives nothing; R36, R39. -/
abbrev Node.Enabled (n : Node) : Prop :=
  n.cfgSet = true ∧ n.ie = true ∧ n.isTransmitting = false

/-- The node is enabled, and this is not the last instant of a closed transmission of its own: a transition
is an `EDGE` step; R110, R171, R211. -/
abbrev Node.Listening (n : Node) : Prop :=
  n.cfgSet = true ∧ n.ie = true ∧ n.isTransmitting = false ∧ n.atMaskedEnd = false

/-- Nothing stands at the port, every node has been shown the wire's level, and no latched edge can be
taken. -/
abbrev State.Shown (s : State) : Prop :=
  s.port = none ∧ s.wire = s.nodes.any (fun n => n.cfgSet && n.tx) ∧
  ∀ n ∈ s.nodes, n.Enabled → n.pend = false

/-- No scheduled pin change is due. -/
abbrev State.NoChangeDue (s : State) : Prop :=
  ∀ n ∈ s.nodes, ∀ c ∈ n.sched.head?, n.clock < c.time

/-- No presented receive transition is due. -/
abbrev State.NoEdgeDue (s : State) : Prop :=
  ∀ a ∈ s.inbox, a.issue.code.format = .event → s.now < a.time

/-- No closed transmission is over. -/
abbrev State.NoTransmissionOver (s : State) : Prop :=
  ∀ n ∈ s.nodes, ∀ e next, n.act = .transmitting e → n.ending = .close next → n.sched = [] → n.clock < e

/-- The transitions and pin changes of this instant that are scheduled or presented have happened, and its
transmissions have ended. -/
abbrev State.Settled (s : State) : Prop :=
  s.Shown ∧ s.NoChangeDue ∧ s.NoEdgeDue ∧ s.NoTransmissionOver

/-- No wait is answered: the flag of a waiting node is not set. -/
abbrev State.NoWaitAnswered (s : State) : Prop :=
  ∀ n ∈ s.nodes, ∀ d, n.act = .waiting d → n.pay.receivedFlag = false

/-- No wait has reached its deadline. -/
abbrev State.NoDeadlineReached (s : State) : Prop :=
  ∀ n ∈ s.nodes, ∀ d, n.act = .waiting d → n.clock < d

/-- Nothing that the outside world presents is due. -/
abbrev State.NothingPresented (s : State) : Prop := ∀ a ∈ s.inbox, s.now < a.time

/-- A node alone on a settled wire, with nothing presented and nothing latched. -/
abbrev State.Alone (s : State) : Prop :=
  s.peers = [] ∧ s.inbox = [] ∧ s.port = none ∧ s.wire = s.busLevel ∧ s.self.pend = false

end Sys2Proof.Machine
end

