-- ==== Sys2Proof/Certificates/Slice0/Obligations.lean ====
section
/-! DEFINITION. The statements for the provers, taken from the numbered rules of spec/. -/

open Sys2Proof Sys2Proof.Machine

/-! ## Encodings -/

/-- Decoding the encoding of a well-formed operation gives it back (R85, R88, R89, R97, R98 to R102). -/
def Obligations.DecodeOfEncodeIsTheOperation : Prop :=
  ∀ i : Instr, i.wellFormed = true → decode (encode i) = .ok i

/-- What decodes is the encoding of what it decodes to, and that is well-formed: no bit of an encoding is
ignored. -/
def Obligations.EncodeOfDecodeIsTheCode : Prop :=
  ∀ (c : Code) (i : Instr), decode c = .ok i → i.wellFormed = true ∧ encode i = c

/-- A 32-bit command word decodes exactly when it has the match value of one of the four rows of R98 under
that row's mask. -/
def Obligations.CommandWordDecodesExactlyUnderItsMask : Prop :=
  ∀ w : Nat, w < 2 ^ 32 →
    ((∃ i, decode { format := .command, nbits := 32, bits := w } = .ok i) ↔
      (w &&& 0xFF0000E0 = 0x20000000 ∨ w &&& 0xFF000000 = 0x40000000 ∨
        w &&& 0xFFFFFFF0 = 0x60000000 ∨ w &&& 0xE0000000 = 0x80000000))

/-- A reserved command word is refused: `op` 000, 101, 110 or 111, or a must-be-zero bit set (R103). -/
def Obligations.ReservedCommandWordIsRefused : Prop :=
  ∀ (s : State) (k w : Nat), w < 2 ^ 32 →
    s.port = some { node := k, code := { format := .command, nbits := 32, bits := w } } →
    (w / 2 ^ 29 = 0 ∨ w / 2 ^ 29 = 5 ∨ w / 2 ^ 29 = 6 ∨ w / 2 ^ 29 = 7 ∨
      (w / 2 ^ 29 = 1 ∧ (w / 2 ^ 24 % 2 ^ 5 ≠ 0 ∨ w / 2 ^ 5 % 2 ^ 3 ≠ 0)) ∨
      (w / 2 ^ 29 = 2 ∧ w / 2 ^ 24 % 2 ^ 5 ≠ 0) ∨
      (w / 2 ^ 29 = 3 ∧ (w / 2 ^ 24 % 2 ^ 5 ≠ 0 ∨ w / 2 ^ 4 % 2 ^ 20 ≠ 0))) →
    ∃ e, step s = .refused (.reservedEncoding e)

/-- Words and tick strings the spec writes out decode to the operations they stand for (R85,
spec/95_test_vectors.md V9). -/
def Obligations.WordsOfTheSpecDecode : Prop :=
  decodeTableWord 16 0xFFE0 = some .bit1 ∧
  decodeTableWord 16 0x001F = some .bit0 ∧
  decodeTableWord 32 0x20020310 = some (.init 2 3 0 .controller) ∧
  decodeTableWord 32 0x40FFFF9C = some (.setp (BitVec.ofInt 32 (-100))) ∧
  decodeTableWord 32 0x60000005 = some (.req 5) ∧
  decodeTableWord 32 0x98FFFF9C = some (.xmit 0xFFFF9C 24) ∧
  decodeTableWord 32 0x41000000 = none

/-! ## The step -/

/-- The operation at the port, when its encoding decodes, is the one the step runs on the state's own
node. A script names a time, a node and an operation (R105). That whatever stands at the port runs at the very
next step, before any other event, is the model's choice (log entries 1 and 8). -/
def Obligations.StepRunsThePresentedOperation : Prop :=
  ∀ (s : State) (c : Code) (i : Instr), s.port = some { node := 0, code := c } → decode c = .ok i →
    step s = exec i { s with port := none }

/-- An operation presented to a peer runs on that peer as it would on the state's own node, and every
other node stays as it is (R220, R221). -/
def Obligations.StepRunsAPeersOperationOnThatPeer : Prop :=
  ∀ (s : State) (k : Nat) (c : Code) (i : Instr) (n : Node) (u : State),
    s.port = some { node := k + 1, code := c } → decode c = .ok i → s.peers[k]? = some n →
    exec i { s with port := none, self := n } = .next u →
    step s = .next { s with port := none, peers := s.peers.set k u.self }

/-- Nothing of the block's own stops it: without an operation at the port there is always a next state
(R200). -/
def Obligations.OnlyAPresentedOperationCanStop : Prop :=
  ∀ s : State, s.port = none → ∃ t, step s = .next t

/-- A step is refused only for an encoding that stands for nothing, an operation at a node that is not
idle, or a node that is not there (R13, R206; the last is the model's, log entry 12). -/
def Obligations.StepRefusesOnlyForTheseReasons : Prop :=
  ∀ (s : State) (r : Refusal), step s = .refused r →
    ∃ q, s.port = some q ∧
      ((∃ e, decode q.code = .error e ∧ r = .reservedEncoding e) ∨
        (s.nodes.length ≤ q.node ∧ r = .noSuchNode q.node) ∨
        (∃ n, s.nodes[q.node]? = some n ∧ n.act ≠ .idle ∧ r = .busy))

/-- An operation changes nothing but the node it acts on: not the wire, the other nodes, the time or the
parameters (R221). -/
def Obligations.OperationsTouchOnlyTheirNode : Prop :=
  ∀ (i : Instr) (s t : State), exec i s = .next t → t = { s with self := t.self }

/-! ## Symbols and frames -/

/-- `BIT1`: 55 µs high, then 25 µs low (the levels and durations of R81). The pin is high at once, falls
after the body, and the node transmits until the slot ends; no flag and no register is written. That the
symbol is an operation of its own, where it may begin and what it leaves is the model's choice (log
entry 5). -/
def Obligations.Bit1IsHighThenLow : Prop :=
  ∀ s : State, s.par.bitPeriod = 80 → s.par.pulsePeriod = 25 → s.self.symbolBoundary = true →
    exec .bit1 s = .next { s with self := { s.self with
      tx := true, act := .transmitting (s.self.clock + 80), ending := .hold
      sched := [{ time := s.self.clock + 55, level := false }] } }

/-- `BIT0`: 55 µs low, then 25 µs high (the levels and durations of R82); no flag and no register is
written. That the symbol is an operation of its own, where it may begin and what it leaves is the model's
choice (log entry 5). -/
def Obligations.Bit0IsLowThenHigh : Prop :=
  ∀ s : State, s.par.bitPeriod = 80 → s.par.pulsePeriod = 25 → s.self.symbolBoundary = true →
    exec .bit0 s = .next { s with self := { s.self with
      tx := false, act := .transmitting (s.self.clock + 80), ending := .hold
      sched := [{ time := s.self.clock + 55, level := true }] } }

/-- `WAKE`: high for one pulse period, with no return to low scheduled and no flag written (R83, R159).
The rules make it a part of `REQ` only; as an operation of its own, which holds the pin and counts as
transmitting, it is the model's choice (log entry 5). -/
def Obligations.WakeIsOneHighPulse : Prop :=
  ∀ s : State, s.self.symbolBoundary = true →
    exec .wake s = .next { s with self := { s.self with
      tx := true, act := .transmitting (s.self.clock + s.par.pulsePeriod), ending := .hold, sched := [] } }

/-- `RELEASE`: the pin is low (R84, R152). As an operation of its own, which ends a bare transmission,
makes the node idle and leaves the interrupt enable alone, it is the model's choice (log entry 5). -/
def Obligations.ReleaseReturnsThePinToLow : Prop :=
  ∀ s : State, s.self.symbolBoundary = true →
    exec .release s = .next { s with self := { s.self with
      tx := false, act := .idle, ending := .hold, sched := [] } }

/-- The frames `ADDR` and `DATA` are their bits as slots, most significant first (R88, R89, R86). As
operations of their own, with no release, no flag written and the last level held, they are the model's
choice (log entry 5). -/
def Obligations.FramesAreTheirBitsAsSlots : Prop :=
  ∀ s : State, s.par.wf = true → s.self.symbolBoundary = true →
    (∀ a : BusAddr, exec (.addr a) s = .next { s with self := { s.self with
      tx := a.toNat.testBit (s.par.addrW - 1)
      act := .transmitting (s.self.clock + s.par.bitPeriod * s.par.addrW), ending := .hold
      sched := slotChanges s.par s.self.clock a.toNat s.par.addrW } }) ∧
    (∀ d : Payload, exec (.data d) s = .next { s with self := { s.self with
      tx := d.toNat.testBit (s.par.dataW - 1)
      act := .transmitting (s.self.clock + s.par.bitPeriod * s.par.dataW), ending := .hold
      sched := slotChanges s.par s.self.clock d.toNat s.par.dataW } })

/-- A bare symbol or frame begins only where one may: not during a wait, not inside a closed transmission,
not before the symbol in progress has ended (R39, R80; log entry 5). -/
def Obligations.SymbolsAreRefusedWhereNoneMayBegin : Prop :=
  ∀ (s : State) (i : Instr),
    (i = .bit1 ∨ i = .bit0 ∨ i = .wake ∨ i = .release ∨ (∃ a, i = .addr a) ∨ ∃ d, i = .data d) →
    ((∃ d, s.self.act = .waiting d) ∨
      ∃ t, s.self.act = .transmitting t ∧
        (s.self.ending ≠ .hold ∨ s.self.sched ≠ [] ∨ s.self.clock < t)) →
    exec i s = .refused .busy

/-! ## The main context's operations -/

/-- `INIT`, `SETP`, `REQ` and `XMIT` are refused while the node is transmitting or waiting (R39, R196,
R206). -/
def Obligations.HostOperationsAreRefusedUnlessIdle : Prop :=
  ∀ (s : State) (i : Instr),
    ((∃ rx tx a role, i = .init rx tx a role) ∨ (∃ v, i = .setp v) ∨ (∃ g, i = .req g) ∨
      ∃ v w, i = .xmit v w) →
    s.self.act ≠ .idle → exec i s = .refused .busy

/-- `XMIT` masks interrupts, drives the bits from `width − 1` down to 0 as slots, releases the pin at the
end, and leaves every other field alone (R150 to R152, R157). -/
def Obligations.XmitStartsItsWaveform : Prop :=
  ∀ (s : State) (v w : Nat), s.par.wf = true → s.self.act = .idle → 0 < w →
    exec (.xmit v w) s = .next { s with self := { s.self with
      ie := false
      tx := v.testBit (w - 1)
      act := .transmitting (s.self.clock + s.par.bitPeriod * w)
      sched := slotChanges s.par s.self.clock v w ++
        [{ time := s.self.clock + s.par.bitPeriod * w, level := false }]
      ending := .close .idle } }

/-- `XMIT` of width 0 sends no slot: the pin is low and interrupts are enabled at once, and the node is
idle (R156); its masked interval is that one instant (R153; log entry 28). -/
def Obligations.XmitOfWidthZeroEndsAtOnce : Prop :=
  ∀ (s : State) (v : Nat), s.self.act = .idle →
    exec (.xmit v 0) s = .next { s with self := { s.self with
      ie := true, tx := false, act := .idle, sched := [], ending := .hold
      maskedThrough := some s.self.clock } }

/-- Bits at positions `width` and above are not sent (R156): values that agree below are transmitted
alike. -/
def Obligations.XmitSendsOnlyTheLowBits : Prop :=
  ∀ (s : State) (v v' w : Nat), v % 2 ^ w = v' % 2 ^ w → exec (.xmit v w) s = exec (.xmit v' w) s

/-- `REQ` masks interrupts, raises the pin for a pulse, drives the address as slots right after it,
releases the pin, and then waits until `REQ_TIMEOUT` after the end (R170 to R174, R90). That no result
stands meanwhile is the model's choice (log entry 6). -/
def Obligations.ReqStartsWakePulseAndAddress : Prop :=
  ∀ (s : State) (g : Nat), s.par.wf = true → s.self.act = .idle →
    exec (.req g) s = .next { s with self := { s.self with
      ie := false
      result := none
      tx := true
      act := .transmitting (s.self.clock + s.par.pulsePeriod + s.par.bitPeriod * s.par.addrW)
      sched := { time := s.self.clock + s.par.pulsePeriod, level := g.testBit (s.par.addrW - 1) } ::
        slotChanges s.par (s.self.clock + s.par.pulsePeriod) g s.par.addrW ++
          [{ time := s.self.clock + s.par.pulsePeriod + s.par.bitPeriod * s.par.addrW, level := false }]
      ending := .close (.waiting
        (s.self.clock + s.par.pulsePeriod + s.par.bitPeriod * s.par.addrW + s.par.reqTimeout)) } }

/-- Only the low `ADDR_W` bits of a request's target are sent (R173). -/
def Obligations.ReqSendsTheTargetModuloTheAddressSpace : Prop :=
  ∀ (s : State) (g : Nat), exec (.req g) s = exec (.req (g % 2 ^ s.par.addrW)) s

/-- With the stated constants, the marker edges of a request issued at `t` fall at `t + 80(k + 1)`, the
whole multiples of a bit period after the wake pulse's rise, and the pin is released at `t + 345`
(R90, R160, R178). -/
def Obligations.RequestMarkersFallOnWholeBitPeriods : Prop :=
  ∀ (s : State) (g : Nat), s.par.bitPeriod = 80 → s.par.pulsePeriod = 25 → s.par.addrW = 4 →
    s.self.act = .idle →
    ∃ t, exec (.req g) s = .next t ∧
      (∀ k, k < 4 →
        { time := s.self.clock + 80 * (k + 1), level := !g.testBit (3 - k) } ∈ t.self.sched) ∧
      t.self.sched.getLast? = some { time := s.self.clock + 345, level := false }

/-- `SETP` replaces `outgoing` whole and leaves interrupts enabled, and nothing else changes (R190,
R191). -/
def Obligations.SetpReplacesOutgoing : Prop :=
  ∀ (s : State) (v : Value), s.self.act = .idle →
    exec (.setp v) s = .next { s with self := { s.self with
      pay := { s.self.pay with outgoing := v }, ie := true } }

/-- `INIT` gives the reset state with the configuration of its operands, whatever stood before (R194,
R196, R241); the microsecond counter reads 0 (spec/92_eei_decisions.md D8, R26; log entry 7), the last result
stays with the caller (log entry 6), and no earlier transmission's masked interval is left (log entry 28). -/
def Obligations.InitGivesTheResetState : Prop :=
  ∀ (s : State) (rx tx a : Nat) (role : Role), s.self.act = .idle →
    exec (.init rx tx a role) s = .next { s with self := {
      cfg := { receivePin := rx, transmitPin := tx, ownAddress := BitVec.ofNat 4 a, role := role }
      cfgSet := true
      dec := { lastEdgeTimestamp := 0, bitsAccumulated := 0, ignoreRemaining := 0, shiftRegister := 0 }
      pay := { outgoing := 0, incoming := 0, receivedFlag := false }
      ie := true, tx := false, pend := false, act := .idle, clock := 0
      sched := [], ending := .hold, result := s.self.result, maskedThrough := none } }

/-! ## The decoder step -/

/-- A transition that no decoder takes changes nothing, or is latched. Before `INIT` it is not seen (R240,
log entry 3). In the masked interval, that is while interrupts are disabled and at the last instant of a
closed transmission, it is lost or latched as the policy says (R38, R171, R208, R211; log entry 28). A node
that drives a bare symbol with interrupts enabled loses it under either policy (log entries 5 and 10). The
last clause says that in every other case the decoder step runs (R110, R207). -/
def Obligations.UntakenEdgesAreLostOrLatched : Prop :=
  ∀ (s : State) (level : Level),
    (s.self.cfgSet = false → exec (.edge level) s = .next s) ∧
    (s.self.cfgSet = true →
      (s.self.ie = false ∨ ∃ t, s.self.maskedThrough = some t ∧ s.self.clock ≤ t) →
      (s.par.maskedEdges = .drop → exec (.edge level) s = .next s) ∧
      (s.par.maskedEdges = .latchOne →
        exec (.edge level) s = .next { s with self := { s.self with pend := true } })) ∧
    (s.self.cfgSet = true → s.self.ie = true → (∀ t, s.self.maskedThrough = some t → t < s.self.clock) →
      (∃ e, s.self.act = .transmitting e) → exec (.edge level) s = .next s) ∧
    (s.self.cfgSet = true → s.self.ie = true → (∀ t, s.self.maskedThrough = some t → t < s.self.clock) →
      (∀ e, s.self.act ≠ .transmitting e) →
      exec (.edge level) s = .next { s with self := s.self.edge s.par level })

/-- An edge closer than `GLITCH_T` to the reference leaves the state as it was (R112); every other edge
becomes the reference (R113). -/
def Obligations.GlitchIsIgnoredAndAnyOtherEdgeIsTheReference : Prop :=
  ∀ (s : State) (level : Level), s.self.Listening →
    (s.self.clock - s.self.dec.lastEdgeTimestamp < s.par.glitchT → exec (.edge level) s = .next s) ∧
    (s.par.glitchT ≤ s.self.clock - s.self.dec.lastEdgeTimestamp →
      ∃ t, exec (.edge level) s = .next t ∧ t.self.dec.lastEdgeTimestamp = s.self.clock)

/-- A gap longer than `FRAME_T` clears the three fields, whatever stood before and whatever the level, and
makes the edge the reference; nothing else changes (R114). -/
def Obligations.FrameTimeoutResynchronises : Prop :=
  ∀ (s : State) (level : Level), s.self.Listening → s.par.wf = true →
    s.par.frameT < s.self.clock - s.self.dec.lastEdgeTimestamp →
    exec (.edge level) s = .next { s with self := { s.self with dec := {
      lastEdgeTimestamp := s.self.clock, bitsAccumulated := 0, ignoreRemaining := 0, shiftRegister := 0 } } }

/-- While edges are to be discarded, one that is neither glitch nor timeout is counted off and nothing
else changes but the reference (R115). -/
def Obligations.SuppressedEdgeIsCountedOff : Prop :=
  ∀ (s : State) (level : Level), s.self.Listening →
    s.par.glitchT ≤ s.self.clock - s.self.dec.lastEdgeTimestamp →
    s.self.clock - s.self.dec.lastEdgeTimestamp ≤ s.par.frameT → 0 < s.self.dec.ignoreRemaining →
    exec (.edge level) s = .next { s with self := { s.self with dec := { s.self.dec with
      lastEdgeTimestamp := s.self.clock, ignoreRemaining := s.self.dec.ignoreRemaining - 1 } } }

/-- A bit that completes no frame of the node's role is shifted in at the least significant end and
counted, and nothing else changes (R116, R117). -/
def Obligations.BitIsShiftedInAndCounted : Prop :=
  ∀ (s : State) (level : Level), s.self.Listening →
    s.par.glitchT ≤ s.self.clock - s.self.dec.lastEdgeTimestamp →
    s.self.clock - s.self.dec.lastEdgeTimestamp ≤ s.par.frameT → s.self.dec.ignoreRemaining = 0 →
    s.self.dec.bitsAccumulated + 1 ≠ s.par.frameW s.self.cfg.role →
    exec (.edge level) s = .next { s with self := { s.self with dec := {
      lastEdgeTimestamp := s.self.clock
      bitsAccumulated := s.self.dec.bitsAccumulated + 1
      ignoreRemaining := 0
      shiftRegister := s.self.dec.shiftRegister <<< 1 ||| (BitVec.ofBool level).setWidth 32 } } }

/-- A listener whose accumulated bits are its address transmits the low bits of `outgoing` from the very
edge on, interrupts off, as slots and then release; the frame is reset, and what the main context was
doing goes on afterwards (R131, R132, R180). That the frame is reset already while the response runs, which
R134 leaves open, and how the main context's activity is kept, are the model's (log entry 4). -/
def Obligations.AddressMatchTransmitsOutgoing : Prop :=
  ∀ (s : State) (level : Level), s.self.Listening → s.par.wf = true →
    s.par.glitchT ≤ s.self.clock - s.self.dec.lastEdgeTimestamp →
    s.self.clock - s.self.dec.lastEdgeTimestamp ≤ s.par.frameT → s.self.dec.ignoreRemaining = 0 →
    s.self.cfg.role = .listener → s.self.dec.bitsAccumulated + 1 = s.par.addrW →
    (s.self.dec.shiftRegister <<< 1 ||| (BitVec.ofBool level).setWidth 32) =
      s.self.cfg.ownAddress.setWidth 32 →
    exec (.edge level) s = .next { s with self := { s.self with
      dec := { lastEdgeTimestamp := s.self.clock, bitsAccumulated := 0, ignoreRemaining := 0, shiftRegister := 0 }
      ie := false
      tx := s.self.pay.outgoing.getLsbD (s.par.dataW - 1)
      act := .transmitting (s.self.clock + s.par.bitPeriod * s.par.dataW)
      sched := slotChanges s.par s.self.clock s.self.pay.outgoing.toNat s.par.dataW ++
        [{ time := s.self.clock + s.par.bitPeriod * s.par.dataW, level := false }]
      ending := .close s.self.act } }

/-- A listener whose accumulated bits are another address discards the next `DATA_W` edges: no
transmission, the frame reset, nothing else changed (R133). -/
def Obligations.AddressMismatchSuppresses : Prop :=
  ∀ (s : State) (level : Level), s.self.Listening →
    s.par.glitchT ≤ s.self.clock - s.self.dec.lastEdgeTimestamp →
    s.self.clock - s.self.dec.lastEdgeTimestamp ≤ s.par.frameT → s.self.dec.ignoreRemaining = 0 →
    s.self.cfg.role = .listener → s.self.dec.bitsAccumulated + 1 = s.par.addrW →
    (s.self.dec.shiftRegister <<< 1 ||| (BitVec.ofBool level).setWidth 32) ≠
      s.self.cfg.ownAddress.setWidth 32 →
    exec (.edge level) s = .next { s with self := { s.self with dec := {
      lastEdgeTimestamp := s.self.clock, bitsAccumulated := 0
      ignoreRemaining := s.par.dataW, shiftRegister := 0 } } }

/-- A controller's 24th bit delivers the frame: `incoming` is the sign-extended low 24 bits of the shift
register, `receivedFlag` is set whether or not it was, the frame is reset, nothing else changes (R135). -/
def Obligations.ControllerCapturesItsFrame : Prop :=
  ∀ (s : State) (level : Level), s.self.Listening → s.par.dataW = 24 →
    s.par.glitchT ≤ s.self.clock - s.self.dec.lastEdgeTimestamp →
    s.self.clock - s.self.dec.lastEdgeTimestamp ≤ s.par.frameT → s.self.dec.ignoreRemaining = 0 →
    s.self.cfg.role = .controller → s.self.dec.bitsAccumulated + 1 = 24 →
    exec (.edge level) s = .next { s with self := { s.self with
      dec := { lastEdgeTimestamp := s.self.clock, bitsAccumulated := 0, ignoreRemaining := 0, shiftRegister := 0 }
      pay := { s.self.pay with
        incoming := ((s.self.dec.shiftRegister <<< 1 |||
          (BitVec.ofBool level).setWidth 32).setWidth 24).signExtend 32
        receivedFlag := true } } }

/-- The sign-extension law: a captured pattern `p` is `p − 2^24` from `2^23` on and `p` below (R136). -/
def Obligations.SignExtensionLaw : Prop :=
  ∀ sr : ShiftReg,
    (2 ^ 23 ≤ sr.toNat % 2 ^ 24 → (captureValue 24 sr).toInt = (sr.toNat % 2 ^ 24 : Nat) - 2 ^ 24) ∧
    (sr.toNat % 2 ^ 24 < 2 ^ 23 → (captureValue 24 sr).toInt = (sr.toNat % 2 ^ 24 : Nat))

/-- An edge that is no frame timeout either decrements `ignoreRemaining` or contributes a bit, never both
(R31): where the count to discard falls, neither the bit count nor the shift register changes. -/
def Obligations.EdgeDecrementsOrContributesNeverBoth : Prop :=
  ∀ (s t : State) (level : Level), exec (.edge level) s = .next t →
    s.self.clock - s.self.dec.lastEdgeTimestamp ≤ s.par.frameT →
    t.self.dec.ignoreRemaining < s.self.dec.ignoreRemaining →
    t.self.dec.bitsAccumulated = s.self.dec.bitsAccumulated ∧
      t.self.dec.shiftRegister = s.self.dec.shiftRegister

/-- What an edge can do depends on the role (R130, R215): a listener never receives a value, and a
controller never transmits, never masks its interrupts and never starts to suppress. -/
def Obligations.RoleLimitsWhatAnEdgeCanDo : Prop :=
  ∀ (s t : State) (level : Level), exec (.edge level) s = .next t →
    (s.self.cfg.role = .listener → t.self.pay = s.self.pay) ∧
    (s.self.cfg.role = .controller →
      t.self.tx = s.self.tx ∧ t.self.act = s.self.act ∧ t.self.sched = s.self.sched ∧
        t.self.ie = s.self.ie ∧ t.self.dec.ignoreRemaining ≤ s.self.dec.ignoreRemaining)

/-- A transition always completes, and no outcome of it touches the configuration, `outgoing`, the clock
or the result (R40, R119). -/
def Obligations.EdgeCompletesAndKeepsItsFrame : Prop :=
  ∀ (s : State) (level : Level), ∃ t, exec (.edge level) s = .next t ∧
    t.self.cfg = s.self.cfg ∧ t.self.cfgSet = s.self.cfgSet ∧
    t.self.pay.outgoing = s.self.pay.outgoing ∧ t.self.clock = s.self.clock ∧
    t.self.result = s.self.result

/-! ## Runs of edges -/

/-- Bits arrive most significant first: after `n` accepted edges the shift register holds the number their
levels spell (R92), and nothing but the decoder's fields and the clock has changed. -/
def Obligations.BitsAreAssembledFirstBitFirst : Prop :=
  ∀ (par : Config) (n : Node) (run : List (Nat × Level)), par.wf = true → n.Listening →
    n.dec = { lastEdgeTimestamp := n.clock, bitsAccumulated := 0, ignoreRemaining := 0, shiftRegister := 0 } →
    BitTimed par run → run.length < par.frameW n.cfg.role →
    n.receive par run = { n with
      clock := n.clock + (run.map Prod.fst).sum
      dec := {
        lastEdgeTimestamp := n.clock + (run.map Prod.fst).sum
        bitsAccumulated := run.length
        ignoreRemaining := 0
        shiftRegister := BitVec.ofNat 32 (bitsValue (run.map Prod.snd)) } }

/-- A controller that is synchronised and whose receive pin then takes the levels of the 24 bits of a
payload, most significant first, at consecutive-bit spacing, holds that payload in `incoming` as a signed
value, with the flag set and the frame reset; nothing else has changed (R92, R94, R135, R136). -/
def Obligations.ControllerReceivesThePayloadAtItsPin : Prop :=
  ∀ (par : Config) (n : Node) (run : List (Nat × Level)) (p : Payload),
    par.wf = true → par.dataW = 24 → n.Listening → n.cfg.role = .controller →
    n.dec = { lastEdgeTimestamp := n.clock, bitsAccumulated := 0, ignoreRemaining := 0, shiftRegister := 0 } →
    BitTimed par run → run.map Prod.snd = (List.range 24).map (fun k => p.getLsbD (23 - k)) →
    ∃ v : Value, v.toInt = p.toInt ∧
      n.receive par run = { n with
        clock := n.clock + (run.map Prod.fst).sum
        dec := {
          lastEdgeTimestamp := n.clock + (run.map Prod.fst).sum
          bitsAccumulated := 0, ignoreRemaining := 0, shiftRegister := 0 }
        pay := { n.pay with incoming := v, receivedFlag := true } }

/-- A listener that is synchronised and then receives the 4 bits of an address responds when the address
is its own, and otherwise discards the next `DATA_W` edges and transmits nothing (R93, R131 to R133). -/
def Obligations.ListenerAnswersExactlyItsAddress : Prop :=
  ∀ (par : Config) (n : Node) (run : List (Nat × Level)) (a : BusAddr),
    par.wf = true → par.addrW = 4 → n.Listening → n.cfg.role = .listener →
    n.dec = { lastEdgeTimestamp := n.clock, bitsAccumulated := 0, ignoreRemaining := 0, shiftRegister := 0 } →
    BitTimed par run → run.map Prod.snd = [a.getLsbD 3, a.getLsbD 2, a.getLsbD 1, a.getLsbD 0] →
    (a = n.cfg.ownAddress →
      (n.receive par run).act =
          .transmitting (n.clock + (run.map Prod.fst).sum + par.bitPeriod * par.dataW) ∧
        (n.receive par run).ie = false ∧
        (n.receive par run).tx = n.pay.outgoing.getLsbD (par.dataW - 1) ∧
        (n.receive par run).dec.ignoreRemaining = 0) ∧
    (a ≠ n.cfg.ownAddress →
      (n.receive par run).act = n.act ∧ (n.receive par run).ie = true ∧
        (n.receive par run).tx = n.tx ∧ (n.receive par run).sched = n.sched ∧
        (n.receive par run).dec.ignoreRemaining = par.dataW)

/-- The next edges that are neither glitches nor timeouts are discarded, as many as the count says,
without effect on the bit count or the shift register (R138). -/
def Obligations.SuppressionDiscardsTheNextEdges : Prop :=
  ∀ (par : Config) (n : Node) (run : List (Nat × Level)), n.Listening →
    n.dec.lastEdgeTimestamp = n.clock → BitTimed par run → run.length ≤ n.dec.ignoreRemaining →
    n.receive par run = { n with
      clock := n.clock + (run.map Prod.fst).sum
      dec := { n.dec with
        lastEdgeTimestamp := n.clock + (run.map Prod.fst).sum
        ignoreRemaining := n.dec.ignoreRemaining - run.length } }

/-- Marker-aligned tracking and its polarity (R120, R122). A node takes the rise of a wake pulse as its
reference; its pin then carries, one pulse later, the slots of the low `w` bits of `v`, slot starts and
markers alike. Every slot start is rejected, every marker is a bit, and what is accumulated is the value
sent when the receive pin carries the complement of the wire, and its complement when it does not. -/
def Obligations.MarkerAlignedReceptionRecoversTheValue : Prop :=
  ∀ (par : Config) (n : Node) (v w : Nat), par.wf = true → n.Listening → 0 < w →
    w < par.frameW n.cfg.role →
    n.dec = { lastEdgeTimestamp := n.clock, bitsAccumulated := 0, ignoreRemaining := 0, shiftRegister := 0 } →
    (n.receive par (transitions par n.clock true
        ({ time := n.clock + par.pulsePeriod, level := v.testBit (w - 1) } ::
          slotChanges par (n.clock + par.pulsePeriod) v w))).dec =
      { lastEdgeTimestamp := n.clock + par.bitPeriod * w
        bitsAccumulated := w
        ignoreRemaining := 0
        shiftRegister := BitVec.ofNat 32
          (if par.rxInvert then v % 2 ^ w else 2 ^ w - 1 - v % 2 ^ w) }

/-! ## The bus and the passing of time -/

/-- When the OR of the transmit pins is not the level the nodes last saw, every node is shown the new level
at its receive pin, the same polarity for all (R222, R223, R224). -/
def Obligations.ChangedWireIsShownToEveryNode : Prop :=
  ∀ s : State, s.port = none →
    s.wire ≠ s.nodes.any (fun n => n.cfgSet && n.tx) →
    ∃ t, step s = .next t ∧
      t.wire = s.nodes.any (fun n => n.cfgSet && n.tx) ∧
      t.nodes = s.nodes.map (Node.onTransition s.par (xor t.wire s.par.rxInvert)) ∧
      t.now = s.now ∧ t.par = s.par ∧ t.inbox = s.inbox ∧ t.port = none

/-- A closed transmission that has driven everything ends with the pin low, interrupts enabled
unconditionally, and what follows it going on (R152, R153, R154); the instant it ends is noted, because it
still belongs to the masked interval (R153, R171, R211; log entry 28). -/
def Obligations.FinishedTransmissionEnablesInterrupts : Prop :=
  ∀ (s : State) (n : Node) (k e : Nat) (next : Activity), s.Shown → s.NoChangeDue → s.NoEdgeDue →
    s.nodes[k]? = some n → n.act = .transmitting e → n.ending = .close next → n.sched = [] →
    e ≤ n.clock →
    ∃ t, step s = .next t ∧
      t.nodes[k]? = some { n with
        tx := false, ie := true, act := next, ending := .hold, maskedThrough := some n.clock }

/-- A wait ends with `incoming` returned and the flag cleared when the flag is set (first clause), and with
0 at the deadline when it is not (second clause, for an instant at which nothing is presented). The third
clause says that it ends in no other way, whatever is presented: 0 is returned only when the deadline has
come without the flag, and besides that only a match interrupts a wait, which goes on after the response
(R174 to R177, R180, R211). It also says what has been dealt with before a deadline is tested: the edges and
pin changes scheduled or presented until then, and the ends and answers of every node's transmissions and
waits. The fourth says that no operation due at that instant, first of its node, could still change the wire
then. The rules put a node's own edges before its own deadline test (R174, R211); the order across nodes in
the third and fourth clauses is the model's choice (log entry 8), and so is the exception to it, which
neither clause excludes: an edge that was latched and that a bare `RELEASE` of a low pin frees under
`latchOne`, and the response it starts, come after the deadline test of their instant (log entries 8 and
10). -/
def Obligations.WaitEndsWithTheValueOrWithZero : Prop :=
  (∀ (s : State) (n : Node) (k deadline : Nat), s.Settled → s.nodes[k]? = some n →
    n.act = .waiting deadline → n.pay.receivedFlag = true →
    ∃ t, step s = .next t ∧ t.nodes[k]? = some { n with
      act := .idle, result := some n.pay.incoming, pay := { n.pay with receivedFlag := false } }) ∧
  (∀ (s : State) (n : Node) (k deadline : Nat), s.Settled → s.NoWaitAnswered → s.NothingPresented →
    s.nodes[k]? = some n → n.act = .waiting deadline → deadline ≤ n.clock →
    ∃ t, step s = .next t ∧ t.nodes[k]? = some { n with act := .idle, result := some 0 }) ∧
  (∀ (s t : State) (n m : Node) (k deadline : Nat), step s = .next t → s.nodes[k]? = some n →
    t.nodes[k]? = some m → n.act = .waiting deadline →
    m.act = .waiting deadline ∨
    (n.pay.receivedFlag = true ∧ m = { n with
      act := .idle, result := some n.pay.incoming, pay := { n.pay with receivedFlag := false } }) ∨
    (n.pay.receivedFlag = false ∧ deadline ≤ n.clock ∧ s.Settled ∧ s.NoWaitAnswered ∧
      m = { n with act := .idle, result := some 0 }) ∨
    (m.isTransmitting = true ∧ m.ending = .close (.waiting deadline))) ∧
  (∀ (s t u : State) (n m : Node) (k deadline : Nat) (a : Arrival), step s = .next t →
    s.nodes[k]? = some n → t.nodes[k]? = some m → n.act = .waiting deadline →
    n.pay.receivedFlag = false → m.act = .idle →
    s.inbox.find? (fun b => decide (b.issue.node = a.issue.node ∧ b.time ≤ s.now)) = some a →
    step { s with port := some a.issue } = .next u →
    u.nodes.any (fun n => n.cfgSet && n.tx) = s.wire)

/-- No step writes the parameters or adds or removes a node (R42, R245, R221). -/
def Obligations.ParametersAndNodesStay : Prop :=
  ∀ s t : State, step s = .next t → t.par = s.par ∧ t.nodes.length = s.nodes.length

/-- Time never runs back (R11, R216), and it passes alike for the scenario and for every node, which is the
model's choice (log entry 25). Only `INIT`, the node's reset, sets the counter of the node it runs on to 0,
and it takes no time (spec/92_eei_decisions.md D8; log entries 7 and 15). -/
def Obligations.TimePassesAlikeForEveryNode : Prop :=
  ∀ s t : State, step s = .next t →
    s.now ≤ t.now ∧
      ∀ (k : Nat) (n : Node), s.nodes[k]? = some n →
        ∃ m, t.nodes[k]? = some m ∧
          (m.clock + s.now = n.clock + t.now ∨
            (m.clock = 0 ∧ t.now = s.now ∧
              ∃ q rx tx a role, s.port = some q ∧ q.node = k ∧ decode q.code = .ok (.init rx tx a role)))

/-- A step lets time pass exactly when nothing is due and something is scheduled: nothing at the port, the
wire shown, no latched edge to take, no pin change due, nothing presented due, no closed transmission over
and no wait over; and a pin change, the end of a closed transmission, a deadline or a line of the script
still to come. So the events of one instant are all handled before the next one (R11, R225; log entry 8).
With nothing scheduled time stands (log entry 26), and the end of a bare symbol or frame schedules nothing
(log entries 5 and 26): both are the model's choice. -/
def Obligations.TimePassesOnlyWhenNothingIsDue : Prop :=
  ∀ s t : State, step s = .next t →
    (s.now < t.now ↔
      s.Shown ∧ s.NoChangeDue ∧ s.NothingPresented ∧ s.NoTransmissionOver ∧ s.NoWaitAnswered ∧
        s.NoDeadlineReached ∧
        (s.inbox ≠ [] ∨ ∃ n ∈ s.nodes, n.sched ≠ [] ∨
          (∃ e next, n.act = .transmitting e ∧ n.ending = .close next) ∨ ∃ d, n.act = .waiting d))

/-- The configuration of a node changes only when `INIT` runs on it (R21). -/
def Obligations.OnlyInitWritesTheConfiguration : Prop :=
  ∀ (s t : State) (k : Nat) (n m : Node), step s = .next t →
    s.nodes[k]? = some n → t.nodes[k]? = some m → m.cfg ≠ n.cfg →
    ∃ q rx tx a role, s.port = some q ∧ q.node = k ∧ decode q.code = .ok (.init rx tx a role)

/-- `outgoing` of a node changes only when `SETP` or `INIT` runs on it (R33, R40). -/
def Obligations.OnlySetpAndInitWriteOutgoing : Prop :=
  ∀ (s t : State) (k : Nat) (n m : Node), step s = .next t →
    s.nodes[k]? = some n → t.nodes[k]? = some m → m.pay.outgoing ≠ n.pay.outgoing →
    ∃ q i, s.port = some q ∧ q.node = k ∧ decode q.code = .ok i ∧
      ((∃ v, i = .setp v) ∨ ∃ rx tx a role, i = .init rx tx a role)

/-- `receivedFlag` is set only by the decoder of a controller that completes a frame, and cleared only by
the consumer's return of `incoming` or by `INIT` (R35, R40). -/
def Obligations.ReceivedFlagIsSetByTheDecoderAndClearedByTheConsumer : Prop :=
  ∀ (s t : State) (k : Nat) (n m : Node), step s = .next t →
    s.nodes[k]? = some n → t.nodes[k]? = some m →
    (n.pay.receivedFlag = false → m.pay.receivedFlag = true →
      n.Enabled ∧ n.cfg.role = .controller ∧ n.dec.bitsAccumulated + 1 = s.par.dataW ∧
        m.dec.bitsAccumulated = 0) ∧
    (n.pay.receivedFlag = true → m.pay.receivedFlag = false →
      ((∃ deadline, n.act = .waiting deadline) ∧ m.act = .idle ∧ m.result = some n.pay.incoming) ∨
        ∃ q rx tx a role, s.port = some q ∧ q.node = k ∧ decode q.code = .ok (.init rx tx a role))

/-! ## Invariants -/

/-- The machine at power-on is in good order, when the free receive polarity is whatever it is. -/
def Obligations.PowerOnIsInGoodOrder : Prop := State.reset.Inv

/-- Every step keeps every node in good order: the decoder's counts stay in their ranges and consistent
with the shift register (R27, R29, R30), `incoming` stays a 24-bit value (R34), the pin is low and nothing
is scheduled outside a transmission (R37), interrupts stay disabled through a closed one (R153), nothing is
latched under `drop` (R38), no scheduled pin change is ever missed (R151, R155), and no masked interval
ends in the future (R153). -/
def Obligations.EveryStepKeepsGoodOrder : Prop :=
  ∀ s t : State, s.Inv → step s = .next t → t.Inv

/-- The power-on state the spec takes (R240, R243): decoder and payload fields zero or false, pin low,
nothing latched, idle, interrupts disabled, configuration unset, clock at 0. -/
def Obligations.PowerOnStateOfANode : Prop :=
  State.reset.self.dec =
      { lastEdgeTimestamp := 0, bitsAccumulated := 0, ignoreRemaining := 0, shiftRegister := 0 } ∧
    State.reset.self.pay = { outgoing := 0, incoming := 0, receivedFlag := false } ∧
    State.reset.self.tx = false ∧ State.reset.self.pend = false ∧ State.reset.self.act = .idle ∧
    State.reset.self.ie = false ∧ State.reset.self.cfgSet = false ∧ State.reset.self.clock = 0

/-! ## Operations run to their end -/

/-- `XMIT` by a node alone on the wire runs to its end (R150, R153, R155): it lasts `width` bit periods, the
pin is low and interrupts are enabled afterwards, the masked interval lasted to the end (log entry 28), and
nothing else has changed; under `drop` the node has seen nothing of its own waveform. -/
def Obligations.LoneXmitRunsToItsEnd : Prop :=
  ∀ (s : State) (v w : Nat), s.Alone → s.par.wf = true → s.par.maskedEdges = .drop →
    s.self.act = .idle → s.self.tx = false →
    ∃ t k, exec (.xmit v w) s = .next t ∧
      Host.Core.run Sys2Proof.core k t = .next { s with
        now := s.now + s.par.bitPeriod * w
        self := { s.self with
          clock := s.self.clock + s.par.bitPeriod * w
          ie := true, sched := [], ending := .hold
          maskedThrough := some (s.self.clock + s.par.bitPeriod * w) } }

/-- `REQ` by a node alone on the wire under `drop`, with no value waiting, returns 0 when `REQ_TIMEOUT` has passed after
the address frame, `incoming` and the flag unchanged, interrupts enabled, the node idle (R174, R176 to
R178). -/
def Obligations.LoneRequestWithoutReplyReturnsZero : Prop :=
  ∀ (s : State) (g : Nat), s.Alone → s.par.wf = true → s.par.maskedEdges = .drop →
    s.self.act = .idle → s.self.tx = false → s.self.pay.receivedFlag = false →
    ∃ t k, exec (.req g) s = .next t ∧
      Host.Core.run Sys2Proof.core k t = .next { s with
        now := s.now + s.par.pulsePeriod + s.par.bitPeriod * s.par.addrW + s.par.reqTimeout
        self := { s.self with
          clock := s.self.clock + s.par.pulsePeriod + s.par.bitPeriod * s.par.addrW + s.par.reqTimeout
          ie := true, sched := [], ending := .hold, result := some 0
          maskedThrough := some (s.self.clock + s.par.pulsePeriod + s.par.bitPeriod * s.par.addrW) } }

/-- `REQ` does not clear the flag first: by a node alone on the wire under `drop`, with a value waiting from
before, it sends its address and returns that stale value at the end of the transmission (R175, R179,
R257). -/
def Obligations.LoneRequestReturnsAStaleValue : Prop :=
  ∀ (s : State) (g : Nat), s.Alone → s.par.wf = true → s.par.maskedEdges = .drop →
    s.self.act = .idle → s.self.tx = false → s.self.pay.receivedFlag = true →
    ∃ t k, exec (.req g) s = .next t ∧
      Host.Core.run Sys2Proof.core k t = .next { s with
        now := s.now + s.par.pulsePeriod + s.par.bitPeriod * s.par.addrW
        self := { s.self with
          clock := s.self.clock + s.par.pulsePeriod + s.par.bitPeriod * s.par.addrW
          ie := true, sched := [], ending := .hold, result := some s.self.pay.incoming
          pay := { s.self.pay with receivedFlag := false }
          maskedThrough := some (s.self.clock + s.par.pulsePeriod + s.par.bitPeriod * s.par.addrW) } }

/-! ## Latched edges, pin changes and the script -/

/-- A latched edge is taken with the level the receive pin has now, and `pend` is cleared (R38); every node
that can do so does it at once, and no other node changes. When that is, is the model's choice (log
entry 10, with 8 and 28): once the wire has been shown, ahead of due pin changes and presented edges, also
at the last instant of a masked interval, and not while the node drives a bare symbol, even with interrupts
enabled. -/
def Obligations.LatchedEdgeIsTakenWithThePresentLevel : Prop :=
  ∀ s : State, s.port = none → s.wire = s.nodes.any (fun n => n.cfgSet && n.tx) →
    (∃ n ∈ s.nodes, n.pend = true ∧ n.Enabled) →
    ∃ t, step s = .next t ∧ t.par = s.par ∧ t.now = s.now ∧ t.wire = s.wire ∧ t.inbox = s.inbox ∧
      t.port = none ∧
      ∀ (k : Nat) (n : Node), s.nodes[k]? = some n →
        t.nodes[k]? = some (if n.pend = true ∧ n.Enabled then
          Node.edge s.par (xor s.wire s.par.rxInvert) { n with pend := false } else n)

/-- A scheduled pin change that is due puts its level on the transmit pin and leaves the schedule; all that
are due are applied together, one at each node, and no other field and no other node changes (R151, R225). -/
def Obligations.DueChangeIsPutOnThePin : Prop :=
  ∀ s : State, s.Shown → (∃ n ∈ s.nodes, ∃ c ∈ n.sched.head?, c.time ≤ n.clock) →
    ∃ t, step s = .next t ∧ t.par = s.par ∧ t.now = s.now ∧ t.wire = s.wire ∧ t.inbox = s.inbox ∧
      t.port = none ∧
      ∀ (k : Nat) (n : Node), s.nodes[k]? = some n →
        (∀ c rest, n.sched = c :: rest → c.time ≤ n.clock →
          t.nodes[k]? = some { n with tx := c.level, sched := rest }) ∧
        ((∀ c ∈ n.sched.head?, n.clock < c.time) → t.nodes[k]? = some n)

/-- How a script's lines reach the port (R105), one a step, the port being free.
A receive transition that is due comes before every other operation (R211) and, with the changes of the
wire and of the pins done, goes to the port, the first listed first.
With the instant settled and no wait over, some line that is due goes to the port, the first of its node.
The order between nodes, and that a line leaves the script for the port in a step of its own, are the
model's (log entries 8 and 26). -/
def Obligations.DueLinesReachThePortEdgesFirst : Prop :=
  (∀ s : State, s.Shown → s.NoChangeDue →
    (∃ a ∈ s.inbox, a.issue.code.format = .event ∧ a.time ≤ s.now) →
    ∃ a, s.inbox.find? (fun b => decide (b.issue.code.format = .event ∧ b.time ≤ s.now)) = some a ∧
      step s = .next { s with inbox := s.inbox.erase a, port := some a.issue }) ∧
  (∀ s t : State, s.port = none → step s = .next t →
    (∃ a ∈ s.inbox, a.issue.code.format = .event ∧ a.time ≤ s.now) →
    ∀ q, t.port = some q → q.code.format = .event) ∧
  (∀ s : State, s.Settled → s.NoWaitAnswered → s.NoDeadlineReached →
    (∃ a ∈ s.inbox, a.time ≤ s.now) →
    ∃ a, s.inbox.find? (fun b => decide (b.issue.node = a.issue.node ∧ b.time ≤ s.now)) = some a ∧
      step s = .next { s with inbox := s.inbox.erase a, port := some a.issue })
end

