-- ==== Sys2Proof/Laws/State.lean ====
section
/-! SUPPORT. The small lemmas of the records: what each update leaves in each field. -/

namespace Sys2Proof.Machine

open Sys2Proof

section Node

@[simp] theorem Node.disableInterrupts_cfg (n : Node) : n.disableInterrupts.cfg = n.cfg := rfl
@[simp] theorem Node.disableInterrupts_cfgSet (n : Node) : n.disableInterrupts.cfgSet = n.cfgSet := rfl
@[simp] theorem Node.disableInterrupts_dec (n : Node) : n.disableInterrupts.dec = n.dec := rfl
@[simp] theorem Node.disableInterrupts_pay (n : Node) : n.disableInterrupts.pay = n.pay := rfl
@[simp] theorem Node.disableInterrupts_ie (n : Node) : n.disableInterrupts.ie = false := rfl
@[simp] theorem Node.disableInterrupts_tx (n : Node) : n.disableInterrupts.tx = n.tx := rfl
@[simp] theorem Node.disableInterrupts_pend (n : Node) : n.disableInterrupts.pend = n.pend := rfl
@[simp] theorem Node.disableInterrupts_act (n : Node) : n.disableInterrupts.act = n.act := rfl
@[simp] theorem Node.disableInterrupts_clock (n : Node) : n.disableInterrupts.clock = n.clock := rfl
@[simp] theorem Node.disableInterrupts_sched (n : Node) : n.disableInterrupts.sched = n.sched := rfl
@[simp] theorem Node.disableInterrupts_ending (n : Node) : n.disableInterrupts.ending = n.ending := rfl
@[simp] theorem Node.disableInterrupts_result (n : Node) : n.disableInterrupts.result = n.result := rfl
@[simp] theorem Node.disableInterrupts_maskedThrough (n : Node) :
    n.disableInterrupts.maskedThrough = n.maskedThrough := rfl

@[simp] theorem Node.enableInterrupts_cfg (n : Node) : n.enableInterrupts.cfg = n.cfg := rfl
@[simp] theorem Node.enableInterrupts_cfgSet (n : Node) : n.enableInterrupts.cfgSet = n.cfgSet := rfl
@[simp] theorem Node.enableInterrupts_dec (n : Node) : n.enableInterrupts.dec = n.dec := rfl
@[simp] theorem Node.enableInterrupts_pay (n : Node) : n.enableInterrupts.pay = n.pay := rfl
@[simp] theorem Node.enableInterrupts_ie (n : Node) : n.enableInterrupts.ie = true := rfl
@[simp] theorem Node.enableInterrupts_tx (n : Node) : n.enableInterrupts.tx = n.tx := rfl
@[simp] theorem Node.enableInterrupts_pend (n : Node) : n.enableInterrupts.pend = n.pend := rfl
@[simp] theorem Node.enableInterrupts_act (n : Node) : n.enableInterrupts.act = n.act := rfl
@[simp] theorem Node.enableInterrupts_clock (n : Node) : n.enableInterrupts.clock = n.clock := rfl
@[simp] theorem Node.enableInterrupts_sched (n : Node) : n.enableInterrupts.sched = n.sched := rfl
@[simp] theorem Node.enableInterrupts_ending (n : Node) : n.enableInterrupts.ending = n.ending := rfl
@[simp] theorem Node.enableInterrupts_result (n : Node) : n.enableInterrupts.result = n.result := rfl
@[simp] theorem Node.enableInterrupts_maskedThrough (n : Node) :
    n.enableInterrupts.maskedThrough = n.maskedThrough := rfl

@[simp] theorem Node.clearPending_cfg (n : Node) : n.clearPending.cfg = n.cfg := rfl
@[simp] theorem Node.clearPending_cfgSet (n : Node) : n.clearPending.cfgSet = n.cfgSet := rfl
@[simp] theorem Node.clearPending_dec (n : Node) : n.clearPending.dec = n.dec := rfl
@[simp] theorem Node.clearPending_pay (n : Node) : n.clearPending.pay = n.pay := rfl
@[simp] theorem Node.clearPending_ie (n : Node) : n.clearPending.ie = n.ie := rfl
@[simp] theorem Node.clearPending_tx (n : Node) : n.clearPending.tx = n.tx := rfl
@[simp] theorem Node.clearPending_pend (n : Node) : n.clearPending.pend = false := rfl
@[simp] theorem Node.clearPending_act (n : Node) : n.clearPending.act = n.act := rfl
@[simp] theorem Node.clearPending_clock (n : Node) : n.clearPending.clock = n.clock := rfl
@[simp] theorem Node.clearPending_sched (n : Node) : n.clearPending.sched = n.sched := rfl
@[simp] theorem Node.clearPending_ending (n : Node) : n.clearPending.ending = n.ending := rfl
@[simp] theorem Node.clearPending_result (n : Node) : n.clearPending.result = n.result := rfl
@[simp] theorem Node.clearPending_maskedThrough (n : Node) : n.clearPending.maskedThrough = n.maskedThrough := rfl

@[simp] theorem Node.deliver_cfg (v : Value) (n : Node) : (n.deliver v).cfg = n.cfg := rfl
@[simp] theorem Node.deliver_cfgSet (v : Value) (n : Node) : (n.deliver v).cfgSet = n.cfgSet := rfl
@[simp] theorem Node.deliver_dec (v : Value) (n : Node) : (n.deliver v).dec = n.dec := rfl
@[simp] theorem Node.deliver_pay (v : Value) (n : Node) :
    (n.deliver v).pay = { n.pay with incoming := v, receivedFlag := true } := rfl
@[simp] theorem Node.deliver_ie (v : Value) (n : Node) : (n.deliver v).ie = n.ie := rfl
@[simp] theorem Node.deliver_tx (v : Value) (n : Node) : (n.deliver v).tx = n.tx := rfl
@[simp] theorem Node.deliver_pend (v : Value) (n : Node) : (n.deliver v).pend = n.pend := rfl
@[simp] theorem Node.deliver_act (v : Value) (n : Node) : (n.deliver v).act = n.act := rfl
@[simp] theorem Node.deliver_clock (v : Value) (n : Node) : (n.deliver v).clock = n.clock := rfl
@[simp] theorem Node.deliver_sched (v : Value) (n : Node) : (n.deliver v).sched = n.sched := rfl
@[simp] theorem Node.deliver_ending (v : Value) (n : Node) : (n.deliver v).ending = n.ending := rfl
@[simp] theorem Node.deliver_result (v : Value) (n : Node) : (n.deliver v).result = n.result := rfl
@[simp] theorem Node.deliver_maskedThrough (v : Value) (n : Node) :
    (n.deliver v).maskedThrough = n.maskedThrough := rfl

@[simp] theorem Node.consume_cfg (n : Node) : n.consume.cfg = n.cfg := rfl
@[simp] theorem Node.consume_cfgSet (n : Node) : n.consume.cfgSet = n.cfgSet := rfl
@[simp] theorem Node.consume_dec (n : Node) : n.consume.dec = n.dec := rfl
@[simp] theorem Node.consume_pay (n : Node) : n.consume.pay = { n.pay with receivedFlag := false } := rfl
@[simp] theorem Node.consume_ie (n : Node) : n.consume.ie = n.ie := rfl
@[simp] theorem Node.consume_tx (n : Node) : n.consume.tx = n.tx := rfl
@[simp] theorem Node.consume_pend (n : Node) : n.consume.pend = n.pend := rfl
@[simp] theorem Node.consume_act (n : Node) : n.consume.act = n.act := rfl
@[simp] theorem Node.consume_clock (n : Node) : n.consume.clock = n.clock := rfl
@[simp] theorem Node.consume_sched (n : Node) : n.consume.sched = n.sched := rfl
@[simp] theorem Node.consume_ending (n : Node) : n.consume.ending = n.ending := rfl
@[simp] theorem Node.consume_result (n : Node) : n.consume.result = some n.pay.incoming := rfl
@[simp] theorem Node.consume_maskedThrough (n : Node) : n.consume.maskedThrough = n.maskedThrough := rfl

@[simp] theorem Node.closeTransmission_cfg (n : Node) (next : Activity) :
    (n.closeTransmission next).cfg = n.cfg := rfl
@[simp] theorem Node.closeTransmission_cfgSet (n : Node) (next : Activity) :
    (n.closeTransmission next).cfgSet = n.cfgSet := rfl
@[simp] theorem Node.closeTransmission_dec (n : Node) (next : Activity) :
    (n.closeTransmission next).dec = n.dec := rfl
@[simp] theorem Node.closeTransmission_pay (n : Node) (next : Activity) :
    (n.closeTransmission next).pay = n.pay := rfl
@[simp] theorem Node.closeTransmission_ie (n : Node) (next : Activity) : (n.closeTransmission next).ie = true := rfl
@[simp] theorem Node.closeTransmission_tx (n : Node) (next : Activity) : (n.closeTransmission next).tx = false := rfl
@[simp] theorem Node.closeTransmission_pend (n : Node) (next : Activity) :
    (n.closeTransmission next).pend = n.pend := rfl
@[simp] theorem Node.closeTransmission_act (n : Node) (next : Activity) : (n.closeTransmission next).act = next := rfl
@[simp] theorem Node.closeTransmission_clock (n : Node) (next : Activity) :
    (n.closeTransmission next).clock = n.clock := rfl
@[simp] theorem Node.closeTransmission_sched (n : Node) (next : Activity) :
    (n.closeTransmission next).sched = [] := rfl
@[simp] theorem Node.closeTransmission_ending (n : Node) (next : Activity) :
    (n.closeTransmission next).ending = .hold := rfl
@[simp] theorem Node.closeTransmission_result (n : Node) (next : Activity) :
    (n.closeTransmission next).result = n.result := rfl
@[simp] theorem Node.closeTransmission_maskedThrough (n : Node) (next : Activity) :
    (n.closeTransmission next).maskedThrough = some n.clock := rfl

@[simp] theorem Node.tick_cfg (d : Nat) (n : Node) : (n.tick d).cfg = n.cfg := rfl
@[simp] theorem Node.tick_cfgSet (d : Nat) (n : Node) : (n.tick d).cfgSet = n.cfgSet := rfl
@[simp] theorem Node.tick_dec (d : Nat) (n : Node) : (n.tick d).dec = n.dec := rfl
@[simp] theorem Node.tick_pay (d : Nat) (n : Node) : (n.tick d).pay = n.pay := rfl
@[simp] theorem Node.tick_ie (d : Nat) (n : Node) : (n.tick d).ie = n.ie := rfl
@[simp] theorem Node.tick_tx (d : Nat) (n : Node) : (n.tick d).tx = n.tx := rfl
@[simp] theorem Node.tick_pend (d : Nat) (n : Node) : (n.tick d).pend = n.pend := rfl
@[simp] theorem Node.tick_act (d : Nat) (n : Node) : (n.tick d).act = n.act := rfl
@[simp] theorem Node.tick_clock (d : Nat) (n : Node) : (n.tick d).clock = n.clock + d := rfl
@[simp] theorem Node.tick_sched (d : Nat) (n : Node) : (n.tick d).sched = n.sched := rfl
@[simp] theorem Node.tick_ending (d : Nat) (n : Node) : (n.tick d).ending = n.ending := rfl
@[simp] theorem Node.tick_result (d : Nat) (n : Node) : (n.tick d).result = n.result := rfl
@[simp] theorem Node.tick_maskedThrough (d : Nat) (n : Node) : (n.tick d).maskedThrough = n.maskedThrough := rfl

@[simp] theorem Node.frameDone_cfg (n : Node) : n.frameDone.cfg = n.cfg := rfl
@[simp] theorem Node.frameDone_cfgSet (n : Node) : n.frameDone.cfgSet = n.cfgSet := rfl
@[simp] theorem Node.frameDone_dec (n : Node) :
    n.frameDone.dec = { n.dec with lastEdgeTimestamp := n.clock, bitsAccumulated := 0, shiftRegister := 0 } := rfl
@[simp] theorem Node.frameDone_pay (n : Node) : n.frameDone.pay = n.pay := rfl
@[simp] theorem Node.frameDone_ie (n : Node) : n.frameDone.ie = n.ie := rfl
@[simp] theorem Node.frameDone_tx (n : Node) : n.frameDone.tx = n.tx := rfl
@[simp] theorem Node.frameDone_pend (n : Node) : n.frameDone.pend = n.pend := rfl
@[simp] theorem Node.frameDone_act (n : Node) : n.frameDone.act = n.act := rfl
@[simp] theorem Node.frameDone_clock (n : Node) : n.frameDone.clock = n.clock := rfl
@[simp] theorem Node.frameDone_sched (n : Node) : n.frameDone.sched = n.sched := rfl
@[simp] theorem Node.frameDone_ending (n : Node) : n.frameDone.ending = n.ending := rfl
@[simp] theorem Node.frameDone_result (n : Node) : n.frameDone.result = n.result := rfl
@[simp] theorem Node.frameDone_maskedThrough (n : Node) : n.frameDone.maskedThrough = n.maskedThrough := rfl

@[simp] theorem Node.onSync_cfg (n : Node) : n.onSync.cfg = n.cfg := rfl
@[simp] theorem Node.onSync_cfgSet (n : Node) : n.onSync.cfgSet = n.cfgSet := rfl
@[simp] theorem Node.onSync_dec (n : Node) :
    n.onSync.dec =
      { lastEdgeTimestamp := n.clock, bitsAccumulated := 0, ignoreRemaining := 0, shiftRegister := 0 } := rfl
@[simp] theorem Node.onSync_pay (n : Node) : n.onSync.pay = n.pay := rfl
@[simp] theorem Node.onSync_ie (n : Node) : n.onSync.ie = n.ie := rfl
@[simp] theorem Node.onSync_tx (n : Node) : n.onSync.tx = n.tx := rfl
@[simp] theorem Node.onSync_pend (n : Node) : n.onSync.pend = n.pend := rfl
@[simp] theorem Node.onSync_act (n : Node) : n.onSync.act = n.act := rfl
@[simp] theorem Node.onSync_clock (n : Node) : n.onSync.clock = n.clock := rfl
@[simp] theorem Node.onSync_sched (n : Node) : n.onSync.sched = n.sched := rfl
@[simp] theorem Node.onSync_ending (n : Node) : n.onSync.ending = n.ending := rfl
@[simp] theorem Node.onSync_result (n : Node) : n.onSync.result = n.result := rfl
@[simp] theorem Node.onSync_maskedThrough (n : Node) : n.onSync.maskedThrough = n.maskedThrough := rfl

@[simp] theorem Node.onSkip_cfg (n : Node) : n.onSkip.cfg = n.cfg := rfl
@[simp] theorem Node.onSkip_cfgSet (n : Node) : n.onSkip.cfgSet = n.cfgSet := rfl
@[simp] theorem Node.onSkip_dec (n : Node) :
    n.onSkip.dec = { n.dec with lastEdgeTimestamp := n.clock, ignoreRemaining := n.dec.ignoreRemaining - 1 } := rfl
@[simp] theorem Node.onSkip_pay (n : Node) : n.onSkip.pay = n.pay := rfl
@[simp] theorem Node.onSkip_ie (n : Node) : n.onSkip.ie = n.ie := rfl
@[simp] theorem Node.onSkip_tx (n : Node) : n.onSkip.tx = n.tx := rfl
@[simp] theorem Node.onSkip_pend (n : Node) : n.onSkip.pend = n.pend := rfl
@[simp] theorem Node.onSkip_act (n : Node) : n.onSkip.act = n.act := rfl
@[simp] theorem Node.onSkip_clock (n : Node) : n.onSkip.clock = n.clock := rfl
@[simp] theorem Node.onSkip_sched (n : Node) : n.onSkip.sched = n.sched := rfl
@[simp] theorem Node.onSkip_ending (n : Node) : n.onSkip.ending = n.ending := rfl
@[simp] theorem Node.onSkip_result (n : Node) : n.onSkip.result = n.result := rfl
@[simp] theorem Node.onSkip_maskedThrough (n : Node) : n.onSkip.maskedThrough = n.maskedThrough := rfl

@[simp] theorem Node.onBit_cfg (level : Level) (n : Node) : (n.onBit level).cfg = n.cfg := rfl
@[simp] theorem Node.onBit_cfgSet (level : Level) (n : Node) : (n.onBit level).cfgSet = n.cfgSet := rfl
@[simp] theorem Node.onBit_dec (level : Level) (n : Node) :
    (n.onBit level).dec =
      { n.dec with lastEdgeTimestamp := n.clock, bitsAccumulated := n.dec.bitsAccumulated + 1, shiftRegister := n.shifted level } := rfl
@[simp] theorem Node.onBit_pay (level : Level) (n : Node) : (n.onBit level).pay = n.pay := rfl
@[simp] theorem Node.onBit_ie (level : Level) (n : Node) : (n.onBit level).ie = n.ie := rfl
@[simp] theorem Node.onBit_tx (level : Level) (n : Node) : (n.onBit level).tx = n.tx := rfl
@[simp] theorem Node.onBit_pend (level : Level) (n : Node) : (n.onBit level).pend = n.pend := rfl
@[simp] theorem Node.onBit_act (level : Level) (n : Node) : (n.onBit level).act = n.act := rfl
@[simp] theorem Node.onBit_clock (level : Level) (n : Node) : (n.onBit level).clock = n.clock := rfl
@[simp] theorem Node.onBit_sched (level : Level) (n : Node) : (n.onBit level).sched = n.sched := rfl
@[simp] theorem Node.onBit_ending (level : Level) (n : Node) : (n.onBit level).ending = n.ending := rfl
@[simp] theorem Node.onBit_result (level : Level) (n : Node) : (n.onBit level).result = n.result := rfl
@[simp] theorem Node.onBit_maskedThrough (level : Level) (n : Node) :
    (n.onBit level).maskedThrough = n.maskedThrough := rfl

@[simp] theorem Node.onMiss_cfg (par : Config) (n : Node) : (n.onMiss par).cfg = n.cfg := rfl
@[simp] theorem Node.onMiss_cfgSet (par : Config) (n : Node) : (n.onMiss par).cfgSet = n.cfgSet := rfl
@[simp] theorem Node.onMiss_dec (par : Config) (n : Node) :
    (n.onMiss par).dec =
      { lastEdgeTimestamp := n.clock, bitsAccumulated := 0, ignoreRemaining := par.dataW, shiftRegister := 0 } := rfl
@[simp] theorem Node.onMiss_pay (par : Config) (n : Node) : (n.onMiss par).pay = n.pay := rfl
@[simp] theorem Node.onMiss_ie (par : Config) (n : Node) : (n.onMiss par).ie = n.ie := rfl
@[simp] theorem Node.onMiss_tx (par : Config) (n : Node) : (n.onMiss par).tx = n.tx := rfl
@[simp] theorem Node.onMiss_pend (par : Config) (n : Node) : (n.onMiss par).pend = n.pend := rfl
@[simp] theorem Node.onMiss_act (par : Config) (n : Node) : (n.onMiss par).act = n.act := rfl
@[simp] theorem Node.onMiss_clock (par : Config) (n : Node) : (n.onMiss par).clock = n.clock := rfl
@[simp] theorem Node.onMiss_sched (par : Config) (n : Node) : (n.onMiss par).sched = n.sched := rfl
@[simp] theorem Node.onMiss_ending (par : Config) (n : Node) : (n.onMiss par).ending = n.ending := rfl
@[simp] theorem Node.onMiss_result (par : Config) (n : Node) : (n.onMiss par).result = n.result := rfl
@[simp] theorem Node.onMiss_maskedThrough (par : Config) (n : Node) :
    (n.onMiss par).maskedThrough = n.maskedThrough := rfl

@[simp] theorem Node.onData_cfg (par : Config) (level : Level) (n : Node) : (n.onData par level).cfg = n.cfg := rfl
@[simp] theorem Node.onData_cfgSet (par : Config) (level : Level) (n : Node) :
    (n.onData par level).cfgSet = n.cfgSet := rfl
@[simp] theorem Node.onData_dec (par : Config) (level : Level) (n : Node) :
    (n.onData par level).dec =
      { n.dec with lastEdgeTimestamp := n.clock, bitsAccumulated := 0, shiftRegister := 0 } := rfl
@[simp] theorem Node.onData_pay (par : Config) (level : Level) (n : Node) :
    (n.onData par level).pay =
      { n.pay with incoming := captureValue par.dataW (n.shifted level), receivedFlag := true } := rfl
@[simp] theorem Node.onData_ie (par : Config) (level : Level) (n : Node) : (n.onData par level).ie = n.ie := rfl
@[simp] theorem Node.onData_tx (par : Config) (level : Level) (n : Node) : (n.onData par level).tx = n.tx := rfl
@[simp] theorem Node.onData_pend (par : Config) (level : Level) (n : Node) : (n.onData par level).pend = n.pend := rfl
@[simp] theorem Node.onData_act (par : Config) (level : Level) (n : Node) : (n.onData par level).act = n.act := rfl
@[simp] theorem Node.onData_clock (par : Config) (level : Level) (n : Node) :
    (n.onData par level).clock = n.clock := rfl
@[simp] theorem Node.onData_sched (par : Config) (level : Level) (n : Node) :
    (n.onData par level).sched = n.sched := rfl
@[simp] theorem Node.onData_ending (par : Config) (level : Level) (n : Node) :
    (n.onData par level).ending = n.ending := rfl
@[simp] theorem Node.onData_result (par : Config) (level : Level) (n : Node) :
    (n.onData par level).result = n.result := rfl
@[simp] theorem Node.onData_maskedThrough (par : Config) (level : Level) (n : Node) :
    (n.onData par level).maskedThrough = n.maskedThrough := rfl

@[simp] theorem Node.setPayload_cfg (v : Value) (n : Node) : (n.setPayload v).cfg = n.cfg := rfl
@[simp] theorem Node.setPayload_cfgSet (v : Value) (n : Node) : (n.setPayload v).cfgSet = n.cfgSet := rfl
@[simp] theorem Node.setPayload_dec (v : Value) (n : Node) : (n.setPayload v).dec = n.dec := rfl
@[simp] theorem Node.setPayload_pay (v : Value) (n : Node) :
    (n.setPayload v).pay = { n.pay with outgoing := v } := rfl
@[simp] theorem Node.setPayload_ie (v : Value) (n : Node) : (n.setPayload v).ie = true := rfl
@[simp] theorem Node.setPayload_tx (v : Value) (n : Node) : (n.setPayload v).tx = n.tx := rfl
@[simp] theorem Node.setPayload_pend (v : Value) (n : Node) : (n.setPayload v).pend = n.pend := rfl
@[simp] theorem Node.setPayload_act (v : Value) (n : Node) : (n.setPayload v).act = n.act := rfl
@[simp] theorem Node.setPayload_clock (v : Value) (n : Node) : (n.setPayload v).clock = n.clock := rfl
@[simp] theorem Node.setPayload_sched (v : Value) (n : Node) : (n.setPayload v).sched = n.sched := rfl
@[simp] theorem Node.setPayload_ending (v : Value) (n : Node) : (n.setPayload v).ending = n.ending := rfl
@[simp] theorem Node.setPayload_result (v : Value) (n : Node) : (n.setPayload v).result = n.result := rfl
@[simp] theorem Node.setPayload_maskedThrough (v : Value) (n : Node) :
    (n.setPayload v).maskedThrough = n.maskedThrough := rfl

@[simp] theorem Node.initialise_cfg (rxPin txPin addr : Nat) (role : Role) (n : Node) :
    (n.initialise rxPin txPin addr role).cfg =
      { receivePin := rxPin, transmitPin := txPin, ownAddress := ownAddressOf addr, role := role } := rfl
@[simp] theorem Node.initialise_cfgSet (rxPin txPin addr : Nat) (role : Role) (n : Node) :
    (n.initialise rxPin txPin addr role).cfgSet = true := rfl
@[simp] theorem Node.initialise_dec (rxPin txPin addr : Nat) (role : Role) (n : Node) :
    (n.initialise rxPin txPin addr role).dec =
      { lastEdgeTimestamp := 0, bitsAccumulated := 0, ignoreRemaining := 0, shiftRegister := 0 } := rfl
@[simp] theorem Node.initialise_pay (rxPin txPin addr : Nat) (role : Role) (n : Node) :
    (n.initialise rxPin txPin addr role).pay = { outgoing := 0, incoming := 0, receivedFlag := false } := rfl
@[simp] theorem Node.initialise_ie (rxPin txPin addr : Nat) (role : Role) (n : Node) :
    (n.initialise rxPin txPin addr role).ie = true := rfl
@[simp] theorem Node.initialise_tx (rxPin txPin addr : Nat) (role : Role) (n : Node) :
    (n.initialise rxPin txPin addr role).tx = false := rfl
@[simp] theorem Node.initialise_pend (rxPin txPin addr : Nat) (role : Role) (n : Node) :
    (n.initialise rxPin txPin addr role).pend = false := rfl
@[simp] theorem Node.initialise_act (rxPin txPin addr : Nat) (role : Role) (n : Node) :
    (n.initialise rxPin txPin addr role).act = .idle := rfl
@[simp] theorem Node.initialise_clock (rxPin txPin addr : Nat) (role : Role) (n : Node) :
    (n.initialise rxPin txPin addr role).clock = 0 := rfl
@[simp] theorem Node.initialise_sched (rxPin txPin addr : Nat) (role : Role) (n : Node) :
    (n.initialise rxPin txPin addr role).sched = [] := rfl
@[simp] theorem Node.initialise_ending (rxPin txPin addr : Nat) (role : Role) (n : Node) :
    (n.initialise rxPin txPin addr role).ending = .hold := rfl
@[simp] theorem Node.initialise_result (rxPin txPin addr : Nat) (role : Role) (n : Node) :
    (n.initialise rxPin txPin addr role).result = n.result := rfl
@[simp] theorem Node.initialise_maskedThrough (rxPin txPin addr : Nat) (role : Role) (n : Node) :
    (n.initialise rxPin txPin addr role).maskedThrough = none := rfl

end Node

section State

@[simp] theorem State.onSelf_par (f : Node → Node) (s : State) : (s.onSelf f).par = s.par := rfl
@[simp] theorem State.onSelf_now (f : Node → Node) (s : State) : (s.onSelf f).now = s.now := rfl
@[simp] theorem State.onSelf_wire (f : Node → Node) (s : State) : (s.onSelf f).wire = s.wire := rfl
@[simp] theorem State.onSelf_self (f : Node → Node) (s : State) : (s.onSelf f).self = f s.self := rfl
@[simp] theorem State.onSelf_peers (f : Node → Node) (s : State) : (s.onSelf f).peers = s.peers := rfl
@[simp] theorem State.onSelf_inbox (f : Node → Node) (s : State) : (s.onSelf f).inbox = s.inbox := rfl
@[simp] theorem State.onSelf_port (f : Node → Node) (s : State) : (s.onSelf f).port = s.port := rfl

@[simp] theorem State.mapNodes_par (f : Node → Node) (s : State) : (s.mapNodes f).par = s.par := rfl
@[simp] theorem State.mapNodes_now (f : Node → Node) (s : State) : (s.mapNodes f).now = s.now := rfl
@[simp] theorem State.mapNodes_wire (f : Node → Node) (s : State) : (s.mapNodes f).wire = s.wire := rfl
@[simp] theorem State.mapNodes_self (f : Node → Node) (s : State) : (s.mapNodes f).self = f s.self := rfl
@[simp] theorem State.mapNodes_peers (f : Node → Node) (s : State) : (s.mapNodes f).peers = s.peers.map f := rfl
@[simp] theorem State.mapNodes_inbox (f : Node → Node) (s : State) : (s.mapNodes f).inbox = s.inbox := rfl
@[simp] theorem State.mapNodes_port (f : Node → Node) (s : State) : (s.mapNodes f).port = s.port := rfl

@[simp] theorem State.takePort_par (s : State) : s.takePort.par = s.par := rfl
@[simp] theorem State.takePort_now (s : State) : s.takePort.now = s.now := rfl
@[simp] theorem State.takePort_wire (s : State) : s.takePort.wire = s.wire := rfl
@[simp] theorem State.takePort_self (s : State) : s.takePort.self = s.self := rfl
@[simp] theorem State.takePort_peers (s : State) : s.takePort.peers = s.peers := rfl
@[simp] theorem State.takePort_inbox (s : State) : s.takePort.inbox = s.inbox := rfl
@[simp] theorem State.takePort_port (s : State) : s.takePort.port = none := rfl

@[simp] theorem State.tick_par (d : Nat) (s : State) : (s.tick d).par = s.par := rfl
@[simp] theorem State.tick_now (d : Nat) (s : State) : (s.tick d).now = s.now + d := rfl
@[simp] theorem State.tick_wire (d : Nat) (s : State) : (s.tick d).wire = s.wire := rfl
@[simp] theorem State.tick_self (d : Nat) (s : State) : (s.tick d).self = s.self.tick d := rfl
@[simp] theorem State.tick_peers (d : Nat) (s : State) : (s.tick d).peers = s.peers.map (Node.tick d) := rfl
@[simp] theorem State.tick_inbox (d : Nat) (s : State) : (s.tick d).inbox = s.inbox := rfl
@[simp] theorem State.tick_port (d : Nat) (s : State) : (s.tick d).port = s.port := rfl

@[simp] theorem State.presentWord_par (s : State) (nbits w : Nat) : (s.presentWord nbits w).par = s.par := rfl
@[simp] theorem State.presentWord_now (s : State) (nbits w : Nat) : (s.presentWord nbits w).now = s.now := rfl
@[simp] theorem State.presentWord_wire (s : State) (nbits w : Nat) : (s.presentWord nbits w).wire = s.wire := rfl
@[simp] theorem State.presentWord_self (s : State) (nbits w : Nat) : (s.presentWord nbits w).self = s.self := rfl
@[simp] theorem State.presentWord_peers (s : State) (nbits w : Nat) : (s.presentWord nbits w).peers = s.peers := rfl
@[simp] theorem State.presentWord_inbox (s : State) (nbits w : Nat) : (s.presentWord nbits w).inbox = s.inbox := rfl
@[simp] theorem State.presentWord_port (s : State) (nbits w : Nat) :
    (s.presentWord nbits w).port = some { node := 0, code := codeOfTableWord nbits w } := rfl

end State

end Sys2Proof.Machine
end

