-- ==== Sys2Proof/Laws/Ops.lean ====
section
/-! SUPPORT. One lemma for each shared node operation, saying once everything it can do, and the fields
it never touches. -/

namespace Sys2Proof.Machine

open Sys2Proof

/-- Masking an edge either keeps the node or latches, as the policy says. -/
theorem Node.maskEdge_cases (par : Config) (n : Node) :
    (par.maskedEdges = .drop ∧ n.maskEdge par = n) ∨
      (par.maskedEdges = .latchOne ∧ n.maskEdge par = { n with pend := true }) := by
  unfold Node.maskEdge
  cases par.maskedEdges <;> simp

/-- Driving a nonempty run: the first level now, the others scheduled. -/
theorem Node.drive_cons (n : Node) (g : Seg) (rest : List Seg) (e : Ending) :
    n.drive (g :: rest) e =
      { n with
        tx := g.level
        act := .transmitting (n.clock + duration (g :: rest))
        sched := changesFrom (n.clock + g.dur) rest ++ releaseAt (n.clock + duration (g :: rest)) e
        ending := e } := rfl

/-- Driving changes the pin and the activity only. -/
theorem Node.drive_cases (n : Node) (segs : List Seg) (e : Ending) :
    ∃ tx act sched ending,
      n.drive segs e = { n with tx := tx, act := act, sched := sched, ending := ending } := by
  cases segs with
  | nil => exact ⟨n.tx, n.act, n.sched, n.ending, rfl⟩
  | cons g rest => exact ⟨_, _, _, _, n.drive_cons g rest e⟩

/-- A closed transmission ends at once, or masks interrupts and drives its run. -/
theorem Node.transmit_cases (n : Node) (segs : List Seg) (next : Activity) :
    (segs = [] ∧ n.transmit segs next = n.closeTransmission next) ∨
      (segs ≠ [] ∧ n.transmit segs next = n.disableInterrupts.drive segs (.close next)) := by
  cases segs with
  | nil => exact .inl ⟨rfl, rfl⟩
  | cons g rest => exact .inr ⟨List.cons_ne_nil g rest, rfl⟩

/-- A closed transmission changes the interrupt enable, the pin, the activity and the end of the masked
interval only. -/
theorem Node.transmit_frame (n : Node) (segs : List Seg) (next : Activity) :
    ∃ ie tx act sched ending masked, n.transmit segs next =
      { n with ie := ie, tx := tx, act := act, sched := sched, ending := ending, maskedThrough := masked } := by
  cases segs with
  | nil => exact ⟨_, _, _, _, _, _, rfl⟩
  | cons g rest => exact ⟨_, _, _, _, _, n.maskedThrough, rfl⟩

/-- The edge interrupt: the handler runs, the transition is masked, or an unbound or transmitting node
sees nothing. -/
theorem Node.takeInterrupt_cases (par : Config) (h : Node → Node) (n : Node) :
    (n.takesEdge = true ∧ n.takeInterrupt par h = h n) ∨
      (n.takesEdge = false ∧ n.masksEdge = true ∧ n.takeInterrupt par h = n.maskEdge par) ∨
      (n.takesEdge = false ∧ n.masksEdge = false ∧ n.takeInterrupt par h = n) := by
  unfold Node.takeInterrupt
  cases n.takesEdge <;> cases n.masksEdge <;> simp

/-- The last instant of the masked interval: the node's clock has not passed the end of its last closed
transmission. -/
theorem Node.atMaskedEnd_iff (n : Node) :
    n.atMaskedEnd = true ↔ ∃ t, n.maskedThrough = some t ∧ n.clock ≤ t := by
  unfold Node.atMaskedEnd
  cases n.maskedThrough <;> simp

/-- What it takes for the handler to run. -/
theorem Node.canHandle_iff (n : Node) :
    n.canHandle = true ↔ n.cfgSet = true ∧ n.ie = true ∧ n.isTransmitting = false := by
  unfold Node.canHandle
  cases n.cfgSet <;> cases n.ie <;> cases n.isTransmitting <;> simp

/-- What it takes for a node to take an edge. -/
theorem Node.takesEdge_iff (n : Node) :
    n.takesEdge = true ↔
      n.cfgSet = true ∧ n.ie = true ∧ n.isTransmitting = false ∧ n.atMaskedEnd = false := by
  unfold Node.takesEdge Node.canHandle
  cases n.cfgSet <;> cases n.ie <;> cases n.isTransmitting <;> cases n.atMaskedEnd <;> simp

/-- What it takes for an edge to be masked. -/
theorem Node.masksEdge_iff (n : Node) :
    n.masksEdge = true ↔ n.cfgSet = true ∧ (n.ie = false ∨ n.atMaskedEnd = true) := by
  unfold Node.masksEdge
  cases n.cfgSet <;> cases n.ie <;> cases n.atMaskedEnd <;> simp

/-- A node transmits when its activity says so. -/
theorem Node.isTransmitting_iff (n : Node) :
    n.isTransmitting = true ↔ ∃ t, n.act = .transmitting t := by
  unfold Node.isTransmitting
  cases n.act <;> simp

/-- A pin change is applied when the first one scheduled is due, and otherwise nothing happens. -/
theorem Node.applyChange_cases (n : Node) :
    (∃ c rest, n.sched = c :: rest ∧ c.time ≤ n.clock ∧
        n.applyChange = { n with tx := c.level, sched := rest }) ∨
      (n.changeDue = false ∧ n.applyChange = n) := by
  cases h : n.sched with
  | nil => exact .inr ⟨by simp [Node.changeDue, h], by simp [Node.applyChange, h]⟩
  | cons c rest =>
    by_cases hc : c.time ≤ n.clock
    · exact .inl ⟨c, rest, rfl, hc, by simp [Node.applyChange, h, hc]⟩
    · exact .inr ⟨by simpa [Node.changeDue, h] using hc, by simp [Node.applyChange, h, hc]⟩

/-- When a closed transmission is over. -/
theorem Node.transmissionOver_iff (n : Node) :
    n.transmissionOver = true ↔
      ∃ t next, n.act = .transmitting t ∧ n.ending = .close next ∧ n.sched = [] ∧ t ≤ n.clock := by
  unfold Node.transmissionOver
  cases n.act <;> cases n.ending <;> simp

/-- A transmission that is over ends, and otherwise nothing happens. -/
theorem Node.finishTransmission_cases (n : Node) :
    (∃ t next, n.act = .transmitting t ∧ n.ending = .close next ∧ n.sched = [] ∧ t ≤ n.clock ∧
        n.finishTransmission = n.closeTransmission next) ∨
      (n.transmissionOver = false ∧ n.finishTransmission = n) := by
  by_cases h : n.transmissionOver = true
  · obtain ⟨t, next, ha, he, hs, ht⟩ := n.transmissionOver_iff.mp h
    exact .inl ⟨t, next, ha, he, hs, ht, by simp [Node.finishTransmission, h, he]⟩
  · have hf : n.transmissionOver = false := by simpa using h
    exact .inr ⟨hf, by simp [Node.finishTransmission, hf]⟩

/-- When a wait is answered. -/
theorem Node.answered_iff (n : Node) :
    n.answered = true ↔ n.pay.receivedFlag = true ∧ ∃ deadline, n.act = .waiting deadline := by
  unfold Node.answered
  cases n.act <;> simp

/-- When a wait has timed out. -/
theorem Node.timedOut_iff (n : Node) :
    n.timedOut = true ↔
      n.pay.receivedFlag = false ∧ ∃ deadline, n.act = .waiting deadline ∧ deadline ≤ n.clock := by
  unfold Node.timedOut
  cases n.act <;> simp

/-- An answered wait ends with the value received, and otherwise nothing happens. -/
theorem Node.takeAnswer_cases (n : Node) :
    (n.answered = true ∧ n.takeAnswer = { n.consume with act := .idle }) ∨
      (n.answered = false ∧ n.takeAnswer = n) := by
  unfold Node.takeAnswer
  cases n.answered <;> simp

/-- A wait that timed out ends with 0, and otherwise nothing happens. -/
theorem Node.timeOut_cases (n : Node) :
    (n.timedOut = true ∧ n.timeOut = { n with act := .idle, result := some 0 }) ∨
      (n.timedOut = false ∧ n.timeOut = n) := by
  unfold Node.timeOut
  cases n.timedOut <;> simp

/-- A node is idle when its activity says so. -/
theorem Node.isIdle_iff (n : Node) : n.isIdle = true ↔ n.act = .idle := by
  simp [Node.isIdle]

/-- Where a bare symbol may begin. -/
theorem Node.symbolBoundary_iff (n : Node) :
    n.symbolBoundary = true ↔
      n.act = .idle ∨ ∃ t, n.act = .transmitting t ∧ n.ending = .hold ∧ n.sched = [] ∧ t ≤ n.clock := by
  unfold Node.symbolBoundary
  cases n.act <;> simp [and_assoc]

/-- A host operation is refused unless the node is idle, and then acts on the node alone. -/
theorem State.hostOp_cases (f : Node → Node) (s : State) :
    (s.self.act = .idle ∧ s.hostOp f = .next (s.onSelf f)) ∨
      (s.self.act ≠ .idle ∧ s.hostOp f = .refused .busy) := by
  unfold State.hostOp
  by_cases h : s.self.act = .idle
  · exact .inl ⟨h, if_pos (s.self.isIdle_iff.mpr h)⟩
  · exact .inr ⟨h, if_neg (mt s.self.isIdle_iff.mp h)⟩

/-- A bare symbol is refused off a symbol boundary, and otherwise acts on the node alone. -/
theorem State.symbolOp_cases (f : Node → Node) (s : State) :
    (s.self.symbolBoundary = true ∧ s.symbolOp f = .next (s.onSelf f)) ∨
      (s.self.symbolBoundary = false ∧ s.symbolOp f = .refused .busy) := by
  unfold State.symbolOp
  cases h : s.self.symbolBoundary <;> simp

/-- A run of segments joined to another lasts as long as both. -/
theorem duration_append (a b : List Seg) : duration (a ++ b) = duration a + duration b := by
  induction a with
  | nil => simp [duration]
  | cons g rest ih => simp [duration, ih, Nat.add_assoc]

/-- The pin changes of two joined runs: the second starts where the first ends. -/
theorem changesFrom_append (t : Nat) (a b : List Seg) :
    changesFrom t (a ++ b) = changesFrom t a ++ changesFrom (t + duration a) b := by
  induction a generalizing t with
  | nil => simp [changesFrom, duration]
  | cons g rest ih => simp [changesFrom, duration, ih, Nat.add_assoc]

/-- A waveform lasts one body and one marker for each bit. -/
theorem duration_waveform (par : Config) (value width : Nat) :
    duration (waveform par value width) = width * (par.body + par.pulsePeriod) := by
  induction width with
  | zero => simp [waveform, duration]
  | succ w ih =>
    simp only [waveform, duration_append, ih, bitSegs, duration]
    ring

/-- The changes of a run are in order and lie between its start and its end. -/
theorem changesFrom_bounds (t : Nat) (segs : List Seg) :
    (changesFrom t segs).Pairwise (fun a b => a.time ≤ b.time) ∧
      ∀ c ∈ changesFrom t segs, t ≤ c.time ∧ c.time ≤ t + duration segs := by
  induction segs generalizing t with
  | nil => simp [changesFrom]
  | cons g rest ih =>
    obtain ⟨hp, hb⟩ := ih (t + g.dur)
    refine ⟨List.pairwise_cons.mpr ⟨fun c hc => ?_, hp⟩, fun c hc => ?_⟩
    · have := (hb c hc).1
      show t ≤ c.time
      omega
    · rcases List.mem_cons.mp hc with rfl | hc
      · simp [duration]
      · have := hb c hc
        simp only [duration]
        omega

end Sys2Proof.Machine
end

