-- ==== Sys2Proof/Laws/Decoder.lean ====
section
/-! SUPPORT. What a decoder step can do (spec/40_frame_decoder.md R110, R119): one of seven outcomes,
each with its condition. -/

namespace Sys2Proof.Machine

open Sys2Proof

/-- The conditions of the label, in the order they are tested. -/
theorem Node.edgeLabel_cases (par : Config) (n : Node) (level : Level) :
    (n.delta < par.glitchT ∧ n.edgeLabel par level = .glitch) ∨
      (par.glitchT ≤ n.delta ∧ par.frameT < n.delta ∧ n.edgeLabel par level = .sync) ∨
      (par.glitchT ≤ n.delta ∧ n.delta ≤ par.frameT ∧ 0 < n.dec.ignoreRemaining ∧
        n.edgeLabel par level = .skip) ∨
      (par.glitchT ≤ n.delta ∧ n.delta ≤ par.frameT ∧ n.dec.ignoreRemaining = 0 ∧
        n.edgeLabel par level = n.dispatchLabel par level) := by
  unfold Node.edgeLabel
  by_cases hg : n.delta < par.glitchT
  · simp [hg]
  · by_cases hf : par.frameT < n.delta
    · simp [hg, hf, Nat.le_of_not_lt hg]
    · by_cases hi : 0 < n.dec.ignoreRemaining
      · simp [hg, hf, hi, Nat.le_of_not_lt hg, Nat.le_of_not_lt hf]
      · simp [hg, hf, Nat.le_of_not_lt hg, Nat.le_of_not_lt hf, Nat.eq_zero_of_not_pos hi]

/-- The conditions of the dispatch. -/
theorem Node.dispatchLabel_cases (par : Config) (n : Node) (level : Level) :
    (n.dec.bitsAccumulated + 1 ≠ par.frameW n.cfg.role ∧ n.dispatchLabel par level = .bit) ∨
      (n.cfg.role = .listener ∧ n.dec.bitsAccumulated + 1 = par.addrW ∧ n.addressed level = true ∧
        n.dispatchLabel par level = .matched) ∨
      (n.cfg.role = .listener ∧ n.dec.bitsAccumulated + 1 = par.addrW ∧ n.addressed level = false ∧
        n.dispatchLabel par level = .missed) ∨
      (n.cfg.role = .controller ∧ n.dec.bitsAccumulated + 1 = par.dataW ∧
        n.dispatchLabel par level = .captured) := by
  unfold Node.dispatchLabel Config.frameW
  cases n.cfg.role with
  | listener =>
    by_cases hb : n.dec.bitsAccumulated + 1 = par.addrW
    · cases ha : n.addressed level <;> simp [hb]
    · simp [hb]
  | controller =>
    by_cases hb : n.dec.bitsAccumulated + 1 = par.dataW <;> simp [hb]

/-- What a decoder step can do. -/
theorem Node.edge_cases (par : Config) (level : Level) (n : Node) :
    (n.delta < par.glitchT ∧ n.edge par level = n) ∨
      (par.glitchT ≤ n.delta ∧ par.frameT < n.delta ∧ n.edge par level = n.onSync) ∨
      (par.glitchT ≤ n.delta ∧ n.delta ≤ par.frameT ∧ 0 < n.dec.ignoreRemaining ∧
        n.edge par level = n.onSkip) ∨
      (par.glitchT ≤ n.delta ∧ n.delta ≤ par.frameT ∧ n.dec.ignoreRemaining = 0 ∧
        ((n.dec.bitsAccumulated + 1 ≠ par.frameW n.cfg.role ∧ n.edge par level = n.onBit level) ∨
          (n.cfg.role = .listener ∧ n.dec.bitsAccumulated + 1 = par.addrW ∧ n.addressed level = true ∧
            n.edge par level = n.onMatch par) ∨
          (n.cfg.role = .listener ∧ n.dec.bitsAccumulated + 1 = par.addrW ∧ n.addressed level = false ∧
            n.edge par level = n.onMiss par) ∨
          (n.cfg.role = .controller ∧ n.dec.bitsAccumulated + 1 = par.dataW ∧
            n.edge par level = n.onData par level))) := by
  rcases n.edgeLabel_cases par level with ⟨h, hl⟩ | ⟨h, h', hl⟩ | ⟨h, h', hi, hl⟩ | ⟨h, h', hi, hl⟩
  · exact .inl ⟨h, by simp [Node.edge, hl]⟩
  · exact .inr (.inl ⟨h, h', by simp [Node.edge, hl]⟩)
  · exact .inr (.inr (.inl ⟨h, h', hi, by simp [Node.edge, hl]⟩))
  · refine .inr (.inr (.inr ⟨h, h', hi, ?_⟩))
    rcases n.dispatchLabel_cases par level with ⟨hb, hd⟩ | ⟨hr, hb, ha, hd⟩ | ⟨hr, hb, ha, hd⟩ | ⟨hr, hb, hd⟩
    · exact .inl ⟨hb, by simp [Node.edge, hl, hd]⟩
    · exact .inr (.inl ⟨hr, hb, ha, by simp [Node.edge, hl, hd]⟩)
    · exact .inr (.inr (.inl ⟨hr, hb, ha, by simp [Node.edge, hl, hd]⟩))
    · exact .inr (.inr (.inr ⟨hr, hb, by simp [Node.edge, hl, hd]⟩))

/-- A match is a closed transmission of the response from the state with the frame done. -/
theorem Node.onMatch_eq (par : Config) (n : Node) :
    n.onMatch par =
      n.frameDone.transmit (waveform par (truncTo par.dataW n.pay.outgoing) par.dataW) n.act := rfl

/-- The shift register after a bit, as a number: it doubles and takes the bit in, modulo `2^SR_W`. -/
theorem shiftIn_toNat (sr : ShiftReg) (level : Level) :
    (shiftIn sr level).toNat = (2 * sr.toNat + level.toNat) % 2 ^ 32 := by
  simp [shiftIn]

/-- A latched edge is taken when it can be, and otherwise nothing happens. -/
theorem Node.takePending_cases (par : Config) (level : Level) (n : Node) :
    (n.pendingReady = true ∧ n.takePending par level = n.clearPending.edge par level) ∨
      (n.pendingReady = false ∧ n.takePending par level = n) := by
  unfold Node.takePending
  cases n.pendingReady <;> simp

end Sys2Proof.Machine
end

