-- ==== Sys2Proof/Laws/Bus.lean ====
section
/-! SUPPORT. The bus: nodes under a common operation, the next delay, the exchange of nodes, and what an
event leaves alone. -/

namespace Sys2Proof.Machine

open Sys2Proof

@[simp] theorem State.mapNodes_nodes (f : Node → Node) (s : State) :
    (s.mapNodes f).nodes = s.nodes.map f := rfl

/-- Changing one node changes that entry of the list of nodes. -/
@[simp] theorem State.atNode_nodes (k : Nat) (f : Node → Node) (s : State) :
    (s.atNode k f).nodes = s.nodes.modify k f := by
  cases k <;> rfl

/-- Changing one node changes no other field. -/
theorem State.atNode_frame (k : Nat) (f : Node → Node) (s : State) :
    ∃ self peers, s.atNode k f = { s with self := self, peers := peers } := by
  cases k <;> exact ⟨_, _, rfl⟩

@[simp] theorem State.tick_nodes (d : Nat) (s : State) :
    (s.tick d).nodes = s.nodes.map (Node.tick d) := rfl

@[simp] theorem State.focus_zero (s : State) : s.focus 0 = some s := rfl

@[simp] theorem State.unfocus_zero (s : State) : s.unfocus 0 = s := rfl

/-- Exchanging with a peer: the two nodes change places and nothing else changes. -/
theorem State.focus_succ_cases (j : Nat) (s : State) :
    (s.peers[j]? = none ∧ s.focus (j + 1) = none) ∨
      (∃ n, s.peers[j]? = some n ∧
        s.focus (j + 1) = some { s with self := n, peers := s.peers.set j s.self }) := by
  cases h : s.peers[j]? with
  | none => exact .inl ⟨rfl, by simp [State.focus, h]⟩
  | some n => exact .inr ⟨n, rfl, by simp [State.focus, h]⟩

/-- The next delay is no longer than any node's or arrival's own. -/
theorem State.nextDelay_le (s : State) (d : Nat) (h : s.nextDelay = some d) :
    (∀ n ∈ s.nodes, ∀ e ∈ n.delays, d ≤ e) ∧ (∀ a ∈ s.inbox, d ≤ a.time - s.now) := by
  have hle := (List.min?_eq_some_iff.mp h).2
  refine ⟨fun n hn e he => hle e ?_, fun a ha => hle _ ?_⟩
  · exact List.mem_append_left _ (List.mem_flatMap.mpr ⟨n, hn, he⟩)
  · exact List.mem_append_right _ (List.mem_map.mpr ⟨a, ha, rfl⟩)

/-- The next delay is some node's or arrival's own. -/
theorem State.nextDelay_mem (s : State) (d : Nat) (h : s.nextDelay = some d) :
    (∃ n ∈ s.nodes, d ∈ n.delays) ∨ (∃ a ∈ s.inbox, d = a.time - s.now) := by
  rcases List.mem_append.mp (List.min?_eq_some_iff.mp h).1 with hm | hm
  · obtain ⟨n, hn, hd⟩ := List.mem_flatMap.mp hm
    exact .inl ⟨n, hn, hd⟩
  · obtain ⟨a, ha, hd⟩ := List.mem_map.mp hm
    exact .inr ⟨a, ha, hd.symm⟩

/-- Presenting an operation moves one arrival to the port, or does nothing. -/
theorem State.present_cases (p : Arrival → Bool) (s : State) :
    (∃ a ∈ s.inbox, p a = true ∧
        s.present p = { s with inbox := s.inbox.erase a, port := some a.issue }) ∨
      (s.inbox.any p = false ∧ s.present p = s) := by
  unfold State.present
  cases h : s.inbox.find? p with
  | none => exact .inr ⟨by simpa using List.find?_eq_none.mp h, rfl⟩
  | some a => exact .inl ⟨a, List.mem_of_find?_eq_some h, List.find?_some h, rfl⟩

/-- The first node of which `p` holds is there, and `p` holds of it. -/
theorem State.firstNode_some (p : Nat → Node → Bool) (s : State) (k : Nat) (h : s.firstNode p = some k) :
    ∃ n, s.nodes[k]? = some n ∧ p k n = true := by
  have hk := List.find?_some h
  cases hn : s.nodes[k]? with
  | none => simp [hn] at hk
  | some n => exact ⟨n, rfl, by simpa [hn] using hk⟩

/-- When there is no first node, `p` holds of none. -/
theorem State.firstNode_none (p : Nat → Node → Bool) (s : State) (h : s.firstNode p = none)
    (k : Nat) (n : Node) (hn : s.nodes[k]? = some n) : p k n = false := by
  have hk := List.find?_eq_none.mp h k (List.mem_range.mpr (List.getElem?_eq_some_iff.mp hn).1)
  simpa [hn] using hk

/-- What an event can do: every node takes the same operation, or an arrival moves to the port, or one
node's wait ends, or time passes. -/
theorem State.event_cases (s : State) (ph : Phase) :
    (∃ f wire, s.event ph = { s with wire := wire }.mapNodes f) ∨
      (∃ p, s.event ph = s.present p) ∨ (∃ k, s.event ph = s.atNode k Node.timeOut) ∨
      (∃ d, s.event ph = s.tick d) := by
  have hid : s = { s with wire := s.wire }.mapNodes id := by simp [State.mapNodes]
  cases ph with
  | issue => exact .inl ⟨id, s.wire, hid⟩
  | wire => exact .inl ⟨_, s.busLevel, rfl⟩
  | pending => exact .inl ⟨_, s.wire, rfl⟩
  | change => exact .inl ⟨_, s.wire, rfl⟩
  | stimulus => exact .inr (.inl ⟨_, rfl⟩)
  | finish => exact .inl ⟨_, s.wire, rfl⟩
  | answer => exact .inl ⟨_, s.wire, rfl⟩
  | drive =>
    simp only [State.event]
    split
    · exact .inr (.inl ⟨_, rfl⟩)
    · exact .inl ⟨id, s.wire, hid⟩
  | yield =>
    simp only [State.event]
    split
    · exact .inr (.inr (.inl ⟨_, rfl⟩))
    · exact .inl ⟨id, s.wire, hid⟩
  | timeout => exact .inl ⟨_, s.wire, rfl⟩
  | command => exact .inr (.inl ⟨_, rfl⟩)
  | advance => exact .inr (.inr (.inr ⟨_, rfl⟩))
  | quiet => exact .inl ⟨id, s.wire, hid⟩

end Sys2Proof.Machine
end

