-- ==== Sys2Proof/Laws/Step.lean ====
section
/-! SUPPORT. What one step can do. -/

namespace Sys2Proof.Machine

open Sys2Proof

/-- Without an operation at the port, a step is the next event. -/
theorem step_of_no_port (s : State) (h : s.port = none) : step s = .next (s.event s.phase) := by
  unfold step
  rw [h]

/-- With an operation at the port, a step decodes and runs it. -/
theorem step_of_port (s : State) (q : Issue) (h : s.port = some q) : step s = runPort q s := by
  unfold step
  rw [h]

/-- What a step that answers a next state has done. -/
theorem step_cases (s t : State) (h : step s = .next t) :
    (s.port = none ∧ t = s.event s.phase) ∨
      (∃ q i f u, s.port = some q ∧ decode q.code = .ok i ∧ s.takePort.focus q.node = some f ∧
        exec i f = .next u ∧ t = u.unfocus q.node) := by
  cases hp : s.port with
  | none =>
    rw [step_of_no_port s hp] at h
    exact .inl ⟨rfl, by injection h with h; exact h.symm⟩
  | some q =>
    rw [step_of_port s q hp] at h
    unfold runPort at h
    cases hd : decode q.code with
    | error e => rw [hd] at h; cases h
    | ok i =>
      rw [hd] at h
      simp only [runOn] at h
      cases hf : s.takePort.focus q.node with
      | none => rw [hf] at h; cases h
      | some f =>
        rw [hf] at h
        simp only at h
        cases hx : exec i f with
        | next u =>
          rw [hx] at h
          injection h with h
          exact .inr ⟨q, i, f, u, rfl, hd, hf, hx, h.symm⟩
        | fault r => cases r
        | refused r => rw [hx] at h; cases h

end Sys2Proof.Machine
end

