-- ==== Sys2Proof/Laws/Invariants.lean ====
section
/-! SUPPORT. Every operation of one node keeps the node in good order. -/

namespace Sys2Proof.Machine

open Sys2Proof

/-- The parts of `Config.wf`. -/
theorem wf_parts (par : Config) (h : par.wf = true) :
    0 < par.pulsePeriod ∧ 3 * par.pulsePeriod ≤ par.bitPeriod ∧ par.glitchT = 3 * par.pulsePeriod ∧
      par.frameT = 2 * par.bitPeriod ∧ 0 < par.addrW ∧ 0 < par.dataW ∧ par.addrW ≤ 32 ∧ par.dataW ≤ 32 := by
  simpa [Config.wf] using h

/-- Both frames carry a bit. -/
theorem frameW_pos (par : Config) (h : par.wf = true) (r : Role) : 0 < par.frameW r := by
  obtain ⟨_, _, _, _, ha, hd, _⟩ := wf_parts par h
  cases r
  · exact ha
  · exact hd

/-- A `w`-bit pattern's integer lies in the `w`-bit range. -/
theorem sintOf_bounds (w p : Nat) (hw : 0 < w) (hp : p < 2 ^ w) :
    -(2 ^ (w - 1)) ≤ sintOf w p ∧ sintOf w p < 2 ^ (w - 1) := by
  obtain ⟨k, rfl⟩ : ∃ k, w = k + 1 := ⟨w - 1, by omega⟩
  have hpow : (2 : Int) ^ (k + 1) = 2 * 2 ^ k := by ring
  have hpowN : 2 ^ (k + 1) = 2 * 2 ^ k := by ring
  have hcast : ((2 ^ k : Nat) : Int) = 2 ^ k := by push_cast; rfl
  unfold sintOf
  simp only [Nat.add_sub_cancel]
  by_cases hb : p.testBit k = true
  · have := Nat.ge_two_pow_of_testBit hb
    rw [if_pos hb, hpow]
    omega
  · have hlt : p < 2 ^ k := by
      by_contra hge
      have : p.testBit k = true := by
        have h1 : p / 2 ^ k = 1 := Nat.div_eq_of_lt_le (by omega) (by omega)
        simp [Nat.testBit, Nat.shiftRight_eq_div_pow, h1]
      exact hb this
    rw [if_neg hb]
    omega

/-- A captured value lies in the range of its width; R34. -/
theorem captureValue_bounds (w : Nat) (sr : ShiftReg) (hw : 0 < w) (hw' : w ≤ 32) :
    -(2 ^ (w - 1)) ≤ (captureValue w sr).toInt ∧ (captureValue w sr).toInt < 2 ^ (w - 1) := by
  have hb := sintOf_bounds w (sr.toNat % 2 ^ w) hw (Nat.mod_lt _ (by positivity))
  have hle : (2 : Int) ^ (w - 1) ≤ 2 ^ 31 := pow_le_pow_right₀ (by norm_num) (by omega)
  have he : (captureValue w sr).toInt = sintOf w (sr.toNat % 2 ^ w) := by
    unfold captureValue
    exact BitVec.toInt_ofInt_eq_self (by norm_num) (by norm_num; omega) (by norm_num; omega)
  rw [he]
  exact hb

/-- Driving a run keeps the timeline. -/
theorem Node.drive_timeline (n : Node) (segs : List Seg) (e : Ending) (h : n.TimelineInv) :
    (n.drive segs e).TimelineInv := by
  cases segs with
  | nil => exact h
  | cons g rest =>
    obtain ⟨hp, hb⟩ := changesFrom_bounds (n.clock + g.dur) rest
    rw [Node.drive_cons]
    refine ⟨?_, ?_, ?_, ?_, h.2.2.2.2⟩
    · refine List.pairwise_append.mpr ⟨hp, ?_, ?_⟩
      · cases e <;> simp [releaseAt]
      · intro a ha b hr
        have := (hb a ha).2
        cases e with
        | hold => simp [releaseAt] at hr
        | close m =>
          simp only [releaseAt, List.mem_singleton] at hr
          subst hr
          simp only [duration]
          omega
    · intro c hc
      rcases List.mem_append.mp hc with hc | hc
      · have := (hb c hc).1
        show n.clock ≤ c.time
        omega
      · cases e with
        | hold => simp [releaseAt] at hc
        | close m =>
          simp only [releaseAt, List.mem_singleton] at hc
          subst hc
          exact Nat.le_add_right _ _
    · intro t ht c hc
      injection ht with ht
      subst ht
      rcases List.mem_append.mp hc with hc | hc
      · have := (hb c hc).2
        simp only [duration]
        omega
      · cases e with
        | hold => simp [releaseAt] at hc
        | close m =>
          simp only [releaseAt, List.mem_singleton] at hc
          subst hc
          exact Nat.le_refl _
    · intro t ht _
      injection ht with ht
      subst ht
      exact Nat.le_add_right _ _

/-- A bare symbol keeps good order. -/
theorem Node.drive_hold_inv (par : Config) (n : Node) (segs : List Seg) (h : n.Inv par) :
    (n.drive segs .hold).Inv par := by
  obtain ⟨hd, hp, hpin, ht⟩ := h
  cases segs with
  | nil => exact ⟨hd, hp, hpin, ht⟩
  | cons g rest =>
    refine ⟨hd, hp, ⟨?_, ?_, hpin.2.2⟩, n.drive_timeline (g :: rest) .hold ht⟩
    · intro h; simp [Node.drive_cons, Node.isTransmitting] at h
    · intro _ h; exact absurd rfl h

/-- A closed transmission keeps good order. -/
theorem Node.transmit_inv (par : Config) (n : Node) (segs : List Seg) (next : Activity)
    (h : n.Inv par) : (n.transmit segs next).Inv par := by
  obtain ⟨hd, hp, hpin, ht⟩ := h
  cases segs with
  | nil =>
    refine ⟨hd, hp, ⟨fun _ => ⟨rfl, rfl⟩, fun _ h => absurd rfl h, hpin.2.2⟩, ?_⟩
    exact ⟨List.Pairwise.nil, fun c hc => (by cases hc), fun t _ c hc => (by cases hc),
      fun t _ h => absurd rfl h, fun t h => (by injection h with h; exact Nat.le_of_eq h.symm)⟩
  | cons g rest =>
    refine ⟨hd, hp, ⟨?_, fun _ _ => rfl, hpin.2.2⟩,
      (n.disableInterrupts).drive_timeline (g :: rest) (.close next) ht⟩
    intro h; simp [Node.transmit, Node.drive_cons, Node.isTransmitting] at h

/-- Ending a closed transmission keeps good order. -/
theorem Node.closeTransmission_inv (par : Config) (n : Node) (next : Activity)
    (h : n.Inv par) : (n.closeTransmission next).Inv par := n.transmit_inv par [] next h

/-- Resetting the frame keeps good order. -/
theorem Node.frameDone_inv (par : Config) (hw : par.wf = true) (n : Node) (h : n.Inv par) :
    n.frameDone.Inv par := by
  obtain ⟨⟨_, _, h3, h4, _⟩, hp, hpin, ht⟩ := h
  exact ⟨⟨Nat.le_refl _, frameW_pos par hw _, h3, h4, by simp⟩, hp, hpin, ht⟩

/-- A decoder step keeps good order; R27, R29, R30. -/
theorem Node.edge_inv (par : Config) (hw : par.wf = true) (level : Level) (n : Node)
    (h : n.Inv par) : (n.edge par level).Inv par := by
  have hfd := n.frameDone_inv par hw h
  obtain ⟨⟨h1, h2, h3, h4, h5⟩, hp, hpin, ht⟩ := h
  rcases n.edge_cases par level with ⟨_, he⟩ | ⟨_, _, he⟩ | ⟨_, _, hi, he⟩ | ⟨_, _, hi, hrest⟩
  · rw [he]; exact ⟨⟨h1, h2, h3, h4, h5⟩, hp, hpin, ht⟩
  · rw [he]
    exact ⟨⟨Nat.le_refl _, frameW_pos par hw _, Nat.zero_le _, fun _ => rfl, by simp⟩, hp, hpin, ht⟩
  · rw [he]
    refine ⟨⟨Nat.le_refl _, h2, ?_, ?_, h5⟩, hp, hpin, ht⟩
    · simp only [Node.onSkip_dec]; omega
    · intro hr; have := h4 hr; omega
  · rcases hrest with ⟨hb, he⟩ | ⟨hr, hb, _, he⟩ | ⟨hr, hb, _, he⟩ | ⟨hr, hb, he⟩
    · rw [he]
      refine ⟨⟨Nat.le_refl _, ?_, h3, h4, ?_⟩, hp, hpin, ht⟩
      · simp only [Node.onBit_dec, Node.onBit_cfg]; omega
      · simp only [Node.onBit_dec, Node.shifted, shiftIn_toNat]
        have hl : level.toNat < 2 := Bool.toNat_lt level
        have := Nat.mod_le (2 * n.dec.shiftRegister.toNat + level.toNat) (2 ^ 32)
        rw [Nat.pow_succ]
        omega
    · rw [he, Node.onMatch_eq]
      exact Node.transmit_inv par _ _ _ hfd
    · rw [he]
      refine ⟨⟨Nat.le_refl _, frameW_pos par hw _, Nat.le_refl _, ?_, by simp⟩, hp, hpin, ht⟩
      intro hc; rw [Node.onMiss_cfg] at hc; rw [hr] at hc; cases hc
    · rw [he]
      have hd := (wf_parts par hw)
      have hcap := captureValue_bounds par.dataW (n.shifted level) hd.2.2.2.2.2.1 hd.2.2.2.2.2.2.2
      refine ⟨⟨Nat.le_refl _, frameW_pos par hw _, h3, h4, by simp⟩, ⟨hcap.1, hcap.2, ?_⟩, hpin, ht⟩
      intro hl; rw [Node.onData_cfg] at hl; rw [hr] at hl; cases hl

/-- A transition of the receive pin keeps good order. -/
theorem Node.onTransition_inv (par : Config) (hw : par.wf = true) (level : Level) (n : Node)
    (h : n.Inv par) : (n.onTransition par level).Inv par := by
  rcases n.takeInterrupt_cases par (Node.edge par level) with ⟨_, he⟩ | ⟨_, _, he⟩ | ⟨_, _, he⟩
  · rw [Node.onTransition, he]; exact n.edge_inv par hw level h
  · rw [Node.onTransition, he]
    rcases n.maskEdge_cases par with ⟨_, hm⟩ | ⟨hp, hm⟩
    · rw [hm]; exact h
    · rw [hm]
      obtain ⟨hd, hpay, ⟨h1, h2, _⟩, ht⟩ := h
      exact ⟨hd, hpay, ⟨h1, h2, fun hdrop => (by rw [hp] at hdrop; cases hdrop)⟩, ht⟩
  · rw [Node.onTransition, he]; exact h

/-- Delivering a latched edge keeps good order. -/
theorem Node.takePending_inv (par : Config) (hw : par.wf = true) (level : Level) (n : Node)
    (h : n.Inv par) : (n.takePending par level).Inv par := by
  rcases n.takePending_cases par level with ⟨_, he⟩ | ⟨_, he⟩
  · rw [he]
    refine Node.edge_inv par hw level _ ?_
    obtain ⟨hd, hpay, ⟨h1, h2, _⟩, ht⟩ := h
    exact ⟨hd, hpay, ⟨h1, h2, fun _ => rfl⟩, ht⟩
  · rw [he]; exact h

/-- Applying a scheduled pin change keeps good order. -/
theorem Node.applyChange_inv (par : Config) (n : Node) (h : n.Inv par) : n.applyChange.Inv par := by
  rcases n.applyChange_cases with ⟨c, rest, hs, _, he⟩ | ⟨_, he⟩
  · rw [he]
    obtain ⟨hd, hpay, ⟨h1, h2, h3⟩, t1, t2, t3, t4⟩ := h
    refine ⟨hd, hpay, ⟨?_, h2, h3⟩, ?_, ?_, ?_, t4⟩
    · intro hn
      have := (h1 hn).2
      rw [hs] at this; cases this
    · rw [hs] at t1; exact (List.pairwise_cons.mp t1).2
    · intro c' hc'; exact t2 c' (by rw [hs]; exact List.mem_cons_of_mem _ hc')
    · intro t ht c' hc'; exact t3 t ht c' (by rw [hs]; exact List.mem_cons_of_mem _ hc')
  · rw [he]; exact h

/-- Ending a transmission that is over keeps good order. -/
theorem Node.finishTransmission_inv (par : Config) (n : Node) (h : n.Inv par) :
    n.finishTransmission.Inv par := by
  rcases n.finishTransmission_cases with ⟨t, next, _, _, _, _, he⟩ | ⟨_, he⟩
  · rw [he]; exact n.closeTransmission_inv par next h
  · rw [he]; exact h

/-- A waiting node that becomes idle stays in good order, when `incoming` is kept and a listener's flag is
not set. -/
theorem Node.leaveWait_inv (par : Config) (n : Node) (d : Nat) (p : PayloadRegisters) (r : Option Value)
    (h : n.Inv par) (ha : n.act = .waiting d) (hi : p.incoming = n.pay.incoming)
    (hf : n.cfg.role = .listener → p.receivedFlag = false) :
    Node.Inv par { n with pay := p, act := .idle, result := r } := by
  obtain ⟨hd, ⟨p1, p2, p3⟩, ⟨h1, h2, h3⟩, t1, t2, t3, t4, t5⟩ := h
  refine ⟨hd, ⟨?_, ?_, ?_⟩, ⟨fun _ => h1 (by simp [Node.isTransmitting, ha]), fun hx => (by cases hx), h3⟩,
    t1, t2, ?_, ?_, t5⟩
  · simpa [hi] using p1
  · simpa [hi] using p2
  · intro hl; exact ⟨hf hl, by simpa [hi] using (p3 hl).2⟩
  · intro t ht; cases ht
  · intro t ht; cases ht

/-- Ending an answered wait keeps good order. -/
theorem Node.takeAnswer_inv (par : Config) (n : Node) (h : n.Inv par) : n.takeAnswer.Inv par := by
  rcases n.takeAnswer_cases with ⟨ha, he⟩ | ⟨_, he⟩
  · obtain ⟨_, d, hd⟩ := n.answered_iff.mp ha
    rw [he]; exact n.leaveWait_inv par d _ _ h hd rfl (fun _ => rfl)
  · rw [he]; exact h

/-- Ending a wait that timed out keeps good order. -/
theorem Node.timeOut_inv (par : Config) (n : Node) (h : n.Inv par) : n.timeOut.Inv par := by
  rcases n.timeOut_cases with ⟨ha, he⟩ | ⟨_, he⟩
  · obtain ⟨hf, d, hd, _⟩ := n.timedOut_iff.mp ha
    rw [he]; exact n.leaveWait_inv par d n.pay _ h hd rfl (fun _ => hf)
  · rw [he]; exact h

/-- Letting no more time pass than until the node's next event keeps good order. -/
theorem Node.tick_inv (par : Config) (d : Nat) (n : Node) (h : n.Inv par)
    (hd : ∀ e ∈ n.delays, d ≤ e) : (n.tick d).Inv par := by
  obtain ⟨⟨d1, d2⟩, hpay, hpin, t1, t2, t3, t4, t5⟩ := h
  refine ⟨⟨?_, d2⟩, hpay, hpin, t1, ?_, t3, ?_, fun t ht => Nat.le_add_right_of_le (t5 t ht)⟩
  · simp only [Node.tick_dec, Node.tick_clock]; omega
  · intro c hc
    rw [Node.tick_sched] at hc
    rw [Node.tick_clock]
    cases hs : n.sched with
    | nil => rw [hs] at hc; cases hc
    | cons c0 rest =>
      have h0 : d ≤ c0.time - n.clock := hd _ (by simp [Node.delays, hs])
      have hle : c0.time ≤ c.time := by
        rw [hs] at hc t1
        rcases List.mem_cons.mp hc with rfl | hc
        · exact Nat.le_refl _
        · exact (List.pairwise_cons.mp t1).1 c hc
      have := t2 c0 (by simp [hs])
      omega
  · intro t ht he
    rw [Node.tick_act] at ht
    rw [Node.tick_ending] at he
    have hclk := t4 t ht he
    rw [Node.tick_clock]
    cases hs : n.sched with
    | nil =>
      have : d ≤ t - n.clock := by
        apply hd
        cases hend : n.ending with
        | hold => exact absurd hend he
        | close m => simp [Node.delays, hs, ht, hend]
      omega
    | cons c0 rest =>
      have h0 : d ≤ c0.time - n.clock := hd _ (by simp [Node.delays, hs])
      have h1 := t3 t ht c0 (by simp [hs])
      have h2 := t2 c0 (by simp [hs])
      omega

/-- An operation keeps the node it acts on in good order. -/
theorem exec_inv (i : Instr) (s t : State) (hw : s.par.wf = true) (h : s.self.Inv s.par)
    (hx : exec i s = .next t) : t.self.Inv s.par := by
  have host : ∀ f, s.hostOp f = .next t → (s.self.act = .idle → (f s.self).Inv s.par) → t.self.Inv s.par := by
    intro f hf hk
    rcases s.hostOp_cases f with ⟨ha, he⟩ | ⟨_, he⟩
    · rw [he] at hf; injection hf with hf; subst hf; exact hk ha
    · rw [he] at hf; cases hf
  have sym : ∀ f, s.symbolOp f = .next t → (f s.self).Inv s.par → t.self.Inv s.par := by
    intro f hf hk
    rcases s.symbolOp_cases f with ⟨ha, he⟩ | ⟨_, he⟩
    · rw [he] at hf; injection hf with hf; subst hf; exact hk
    · rw [he] at hf; cases hf
  cases i with
  | bit1 => exact sym _ hx (Node.drive_hold_inv _ _ _ h)
  | bit0 => exact sym _ hx (Node.drive_hold_inv _ _ _ h)
  | wake => exact sym _ hx (Node.drive_hold_inv _ _ _ h)
  | release =>
    refine sym _ hx ?_
    obtain ⟨hd, hp, hpin, _, _, _, _, t5⟩ := h
    exact ⟨hd, hp, ⟨fun _ => ⟨rfl, rfl⟩, fun hx => (by cases hx), hpin.2.2⟩, List.Pairwise.nil,
      fun c hc => (by cases hc), fun t ht => (by cases ht), fun t ht => (by cases ht), t5⟩
  | addr a => exact sym _ hx (Node.drive_hold_inv _ _ _ h)
  | data a => exact sym _ hx (Node.drive_hold_inv _ _ _ h)
  | edge level =>
    injection hx with hx; subst hx
    exact Node.onTransition_inv _ hw level _ h
  | init rx tx a r =>
    refine host _ hx fun _ => ?_
    refine ⟨⟨Nat.zero_le _, frameW_pos _ hw _, Nat.zero_le _, fun _ => rfl, by simp⟩, ⟨?_, ?_, fun _ => ⟨rfl, rfl⟩⟩,
      ⟨fun _ => ⟨rfl, rfl⟩, fun hx => (by cases hx), fun _ => rfl⟩, List.Pairwise.nil,
      fun c hc => (by cases hc), fun t ht => (by cases ht), fun t ht => (by cases ht),
      fun t ht => (by cases ht)⟩
    · simp [Node.initialise_pay]
    · simp only [Node.initialise_pay]; positivity
  | setp v =>
    refine host _ hx fun hidle => ?_
    obtain ⟨hd, hp, hpin, ht⟩ := h
    refine ⟨hd, hp, ⟨hpin.1, fun hx => ?_, hpin.2.2⟩, ht⟩
    have : s.self.isTransmitting = true := hx
    simp [Node.isTransmitting, hidle] at this
  | req g => exact host _ hx fun _ => Node.transmit_inv _ _ _ _ h
  | xmit v w => exact host _ hx fun _ => Node.transmit_inv _ _ _ _ h
end Sys2Proof.Machine
end

