-- ==== Sys2Proof/Laws/PerInstr.lean ====
section
/-! SUPPORT. Facts about every operation as syntax, one lemma for each constructor. -/

namespace Sys2Proof.Laws

open Sys2Proof

/-- The encoding of a well-formed operation has no more bits than it says. -/
def EncodingFits.Statement (i : Instr) : Prop :=
  i.wellFormed = true → (encode i).bits < 2 ^ (encode i).nbits

theorem EncodingFits.bit1 : EncodingFits.Statement .bit1 := fun _ => by decide

theorem EncodingFits.bit0 : EncodingFits.Statement .bit0 := fun _ => by decide

theorem EncodingFits.wake : EncodingFits.Statement .wake := fun _ => by decide

theorem EncodingFits.release : EncodingFits.Statement .release := fun _ => by decide

theorem EncodingFits.addr (a : BusAddr) : EncodingFits.Statement (.addr a) := fun _ => a.isLt

theorem EncodingFits.data (d : Payload) : EncodingFits.Statement (.data d) := fun _ => d.isLt

theorem EncodingFits.edge (level : Level) : EncodingFits.Statement (.edge level) := fun _ => Bool.toNat_lt level

theorem EncodingFits.init (rxPin txPin addr : Nat) (role : Role) :
    EncodingFits.Statement (.init rxPin txPin addr role) := by
  intro h
  simp only [Instr.wellFormed, decide_eq_true_eq] at h
  cases role <;> (simp only [encode, commandWord, Role.flag]; omega)

theorem EncodingFits.setp (value : Value) : EncodingFits.Statement (.setp value) := by
  intro _
  simp only [encode, commandWord]
  omega

theorem EncodingFits.req (target : Nat) : EncodingFits.Statement (.req target) := by
  intro h
  simp only [Instr.wellFormed, decide_eq_true_eq] at h
  simp only [encode, commandWord]
  omega

theorem EncodingFits.xmit (value width : Nat) : EncodingFits.Statement (.xmit value width) := by
  intro h
  simp only [Instr.wellFormed, decide_eq_true_eq] at h
  simp only [encode, commandWord]
  omega

end Sys2Proof.Laws
end

