-- ==== Sys2Proof/Laws/Schedule.lean ====
section
/-! SUPPORT. Which event is next: the conditions of an instant as the tests of `State.phase`, and what each
phase says of the state. -/

namespace Sys2Proof.Machine

open Sys2Proof

/-- Everything that can still happen at this instant has been shown to the nodes, as the phase tests it. -/
theorem State.shown_iff (s : State) :
    s.Shown ↔ s.port = none ∧ s.wire = s.busLevel ∧ s.nodes.any Node.pendingReady = false := by
  have hb : s.busLevel = s.nodes.any (fun n => n.cfgSet && n.tx) := rfl
  unfold State.Shown
  rw [hb]
  simp only [List.any_eq_false, Node.pendingReady, Bool.and_eq_true, Node.canHandle_iff, Node.Enabled]
  refine and_congr_right fun _ => and_congr_right fun _ => forall_congr' fun n => forall_congr' fun _ => ?_
  cases n.pend <;> simp

theorem State.noChangeDue_iff (s : State) : s.NoChangeDue ↔ s.nodes.any Node.changeDue = false := by
  simp only [State.NoChangeDue, List.any_eq_false]
  refine forall_congr' fun n => forall_congr' fun _ => ?_
  cases h : n.sched <;> simp [Node.changeDue, h]

theorem State.noEdgeDue_iff (s : State) : s.NoEdgeDue ↔ s.inbox.any s.dueEdge = false := by
  simp only [State.NoEdgeDue, List.any_eq_false, State.dueEdge, State.due, Bool.and_eq_true, decide_eq_true_eq]
  refine forall_congr' fun a => forall_congr' fun _ => ⟨fun h hd => ?_, fun h hf => ?_⟩
  · have := h hd.2; omega
  · by_contra hn; exact h ⟨by omega, hf⟩

theorem State.noTransmissionOver_iff (s : State) :
    s.NoTransmissionOver ↔ s.nodes.any Node.transmissionOver = false := by
  simp only [State.NoTransmissionOver, List.any_eq_false, Node.transmissionOver_iff]
  refine forall_congr' fun n => forall_congr' fun _ => ⟨fun h hd => ?_, fun h e next ha he hs => ?_⟩
  · obtain ⟨e, next, ha, he, hs, hle⟩ := hd
    have := h e next ha he hs
    omega
  · by_contra hn
    exact h ⟨e, next, ha, he, hs, by omega⟩

theorem State.noWaitAnswered_iff (s : State) : s.NoWaitAnswered ↔ s.nodes.any Node.answered = false := by
  simp only [State.NoWaitAnswered, List.any_eq_false, Node.answered_iff]
  refine forall_congr' fun n => forall_congr' fun _ => ⟨fun h hd => ?_, fun h d hd => ?_⟩
  · obtain ⟨hf, d, ha⟩ := hd
    rw [h d ha] at hf; cases hf
  · by_contra hf
    exact h ⟨by simpa using hf, d, hd⟩

/-- With no wait answered, no deadline has been reached when no wait has timed out. -/
theorem State.noDeadlineReached_iff (s : State) (h : s.NoWaitAnswered) :
    s.NoDeadlineReached ↔ s.nodes.any Node.timedOut = false := by
  simp only [State.NoDeadlineReached, List.any_eq_false, Node.timedOut_iff]
  refine forall_congr' fun n => forall_congr' fun hn => ⟨fun hd ht => ?_, fun ht d hd => ?_⟩
  · obtain ⟨_, d, ha, hle⟩ := ht
    have := hd d ha
    omega
  · by_contra hle
    exact ht ⟨h n hn d hd, d, hd, by omega⟩

theorem State.nothingPresented_iff (s : State) : s.NothingPresented ↔ s.inbox.any s.due = false := by
  simp only [State.NothingPresented, List.any_eq_false, State.due, decide_eq_true_eq, Nat.not_le]

/-- A node at which nothing is due drives nothing. -/
theorem State.wouldDrive_of_nothing (s : State) (h : s.NothingPresented) (k : Nat) (n : Node) :
    s.wouldDrive k n = false := by
  have hnil : s.inbox.filter (s.dueAt k) = [] := by
    refine List.filter_eq_nil_iff.mpr fun a ha => ?_
    have := h a ha
    simp [State.dueAt, State.due, Nat.not_le.mpr this]
  simp [State.wouldDrive, hnil, State.changesPin]

/-- With nothing due, no node has anything to drive, nor anything to drive after a wait. -/
theorem State.no_driver_of_nothing (s : State) (h : s.NothingPresented) :
    s.driver = none ∧ s.yielder = none := by
  constructor
  · cases hd : s.driver with
    | none => rfl
    | some k =>
      obtain ⟨n, _, hw⟩ := s.firstNode_some _ k hd
      rw [s.wouldDrive_of_nothing h] at hw; cases hw
  · cases hd : s.yielder with
    | none => rfl
    | some k =>
      obtain ⟨n, _, hw⟩ := s.firstNode_some _ k hd
      rw [s.wouldDrive_of_nothing h, Bool.and_false] at hw; cases hw

/-- The next event once the instant is settled. -/
theorem State.phase_of_settled (s : State) (h : s.Settled) :
    s.phase =
      if s.nodes.any Node.answered then .answer
      else if s.driver.isSome then .drive
      else if s.yielder.isSome then .yield
      else if s.nodes.any Node.timedOut then .timeout
      else if s.inbox.any s.due then .command
      else if s.nextDelay.isSome then .advance
      else .quiet := by
  obtain ⟨h1, h2, h3, h4⟩ := h
  obtain ⟨p1, p2, p3⟩ := s.shown_iff.mp h1
  simp [State.phase, p1, ← p2, p3, s.noChangeDue_iff.mp h2, s.noEdgeDue_iff.mp h3,
    s.noTransmissionOver_iff.mp h4]

/-- The next event before that: what an unsettled instant still has to deal with. -/
theorem State.phase_of_unsettled (s : State) (hp : s.port = none) (h : ¬ s.Settled) :
    (s.wire ≠ s.busLevel ∧ s.phase = .wire) ∨
      (s.wire = s.busLevel ∧ s.nodes.any Node.pendingReady = true ∧ s.phase = .pending) ∨
      (s.Shown ∧ s.nodes.any Node.changeDue = true ∧ s.phase = .change) ∨
      (s.Shown ∧ s.NoChangeDue ∧ s.inbox.any s.dueEdge = true ∧ s.phase = .stimulus) ∨
      (s.Shown ∧ s.NoChangeDue ∧ s.NoEdgeDue ∧ s.nodes.any Node.transmissionOver = true ∧
        s.phase = .finish) := by
  rw [State.Settled, s.shown_iff, s.noChangeDue_iff, s.noEdgeDue_iff, s.noTransmissionOver_iff] at h
  rw [s.shown_iff, s.noChangeDue_iff, s.noEdgeDue_iff]
  by_cases hw : s.wire = s.busLevel
  · cases hq : s.nodes.any Node.pendingReady
    · cases hc : s.nodes.any Node.changeDue
      · cases he : s.inbox.any s.dueEdge
        · cases ht : s.nodes.any Node.transmissionOver
          · exact absurd ⟨⟨hp, hw, hq⟩, hc, he, ht⟩ h
          · simp [State.phase, hp, ← hw, hq, hc, he, ht]
        · simp [State.phase, hp, ← hw, hq, hc, he]
      · simp [State.phase, hp, ← hw, hq, hc]
    · simp [State.phase, hp, ← hw, hq]
  · simp [State.phase, hp, hw]

/-- What an operation does depends on nothing but the parameters and the node it acts on. -/
theorem exec_local (i : Instr) (s s' : State) (hp : s'.par = s.par) (hn : s'.self = s.self) :
    (∃ t t', exec i s = .next t ∧ exec i s' = .next t' ∧ t'.self = t.self) ∨
      (∃ r, exec i s = .refused r ∧ exec i s' = .refused r) := by
  have host : ∀ f : Node → Node,
      (∃ t t', s.hostOp f = .next t ∧ s'.hostOp f = .next t' ∧ t'.self = t.self) ∨
        (∃ r, s.hostOp f = .refused r ∧ s'.hostOp f = .refused r) := by
    intro f
    unfold State.hostOp
    rw [hn]
    split
    · exact .inl ⟨_, _, rfl, rfl, by simp [hn]⟩
    · exact .inr ⟨_, rfl, rfl⟩
  have symbol : ∀ f : Node → Node,
      (∃ t t', s.symbolOp f = .next t ∧ s'.symbolOp f = .next t' ∧ t'.self = t.self) ∨
        (∃ r, s.symbolOp f = .refused r ∧ s'.symbolOp f = .refused r) := by
    intro f
    unfold State.symbolOp
    rw [hn]
    split
    · exact .inl ⟨_, _, rfl, rfl, by simp [hn]⟩
    · exact .inr ⟨_, rfl, rfl⟩
  cases i with
  | edge level => exact .inl ⟨_, _, rfl, rfl, by simp [hn, hp]⟩
  | bit1 => simp only [exec, execBit1, hp]; exact symbol _
  | bit0 => simp only [exec, execBit0, hp]; exact symbol _
  | wake => simp only [exec, execWake, hp]; exact symbol _
  | release => simp only [exec, execRelease]; exact symbol _
  | addr a => simp only [exec, execAddr, hp]; exact symbol _
  | data d => simp only [exec, execData, hp]; exact symbol _
  | init rx tx a r => simp only [exec, execInit]; exact host _
  | setp v => simp only [exec, execSetp]; exact host _
  | req g => simp only [exec, execReq, hp]; exact host _
  | xmit v w => simp only [exec, execXmit, hp]; exact host _

end Sys2Proof.Machine
end

