-- ==== Sys2Proof/Laws/Waveform.lean ====
section
/-! SUPPORT. What driving a value's waveform schedules, in the terms of the claims: one lemma for a bare
run of slots, one for a closed transmission (spec/30_encoding.md R86, spec/42_bit_transmitter.md R157). -/

namespace Sys2Proof.Machine

open Sys2Proof

/-- A body and a marker make a bit period; R9. -/
theorem body_add_pulse (par : Config) (hw : par.wf = true) : par.body + par.pulsePeriod = par.bitPeriod := by
  obtain ⟨_, h3, _⟩ := wf_parts par hw
  unfold Config.body
  omega

/-- A waveform lasts one bit period for each bit; R157. -/
theorem duration_waveform_wf (par : Config) (hw : par.wf = true) (value width : Nat) :
    duration (waveform par value width) = par.bitPeriod * width := by
  rw [duration_waveform, body_add_pulse par hw, Nat.mul_comm]

/-- The pin changes of a waveform: the first slot's start, then those of `slotChanges`. -/
theorem changesFrom_waveform (par : Config) (hw : par.wf = true) (t value w : Nat) :
    changesFrom t (waveform par value (w + 1)) =
      { time := t, level := value.testBit w } :: slotChanges par t value (w + 1) := by
  have hb := body_add_pulse par hw
  induction w generalizing t with
  | zero => simp [waveform, bitSegs, changesFrom, slotChanges, List.range_succ]
  | succ w ih =>
    rw [waveform]
    simp only [bitSegs, List.cons_append, List.nil_append, changesFrom]
    rw [ih]
    unfold slotChanges
    rw [show 2 * (w + 1 + 1) - 1 = (2 * (w + 1) - 1) + 1 + 1 by omega, List.range_succ_eq_map,
      List.range_succ_eq_map]
    simp only [List.map_cons, List.map_map]
    congr 1
    simp only [List.cons.injEq]
    refine ⟨by simp, by simp; omega, List.map_congr_left fun j _ => ?_⟩
    simp only [Function.comp, Nat.succ_eq_add_one]
    rw [show (j + 1 + 1) % 2 = j % 2 by omega, show (j + 1 + 1) / 2 = j / 2 + 1 by omega,
      show (j + 1 + 1 + 1) / 2 = (j + 1) / 2 + 1 by omega]
    split
    · simp only [TxChange.mk.injEq]
      exact ⟨by rw [Nat.mul_add]; omega, by congr 2; omega⟩
    · simp only [TxChange.mk.injEq]
      exact ⟨by rw [Nat.mul_add]; omega, by congr 1; omega⟩

/-- Driving a nonempty waveform. -/
theorem Node.drive_waveform (par : Config) (hw : par.wf = true) (n : Node) (value width : Nat) (e : Ending)
    (h0 : 0 < width) :
    n.drive (waveform par value width) e =
      { n with
        tx := value.testBit (width - 1)
        act := .transmitting (n.clock + par.bitPeriod * width)
        sched := slotChanges par n.clock value width ++ releaseAt (n.clock + par.bitPeriod * width) e
        ending := e } := by
  obtain ⟨w, rfl⟩ : ∃ k, width = k + 1 := ⟨width - 1, by omega⟩
  have hs := changesFrom_waveform par hw n.clock value w
  have hd := duration_waveform_wf par hw value (w + 1)
  cases hwf : waveform par value (w + 1) with
  | nil => simp [waveform, bitSegs] at hwf
  | cons g rest =>
    rw [hwf] at hs hd
    simp only [changesFrom, List.cons.injEq, TxChange.mk.injEq, true_and] at hs
    rw [Node.drive_cons, hd, hs.2, hs.1]
    rfl

/-- A closed transmission of a nonempty waveform. -/
theorem Node.transmit_waveform (par : Config) (hw : par.wf = true) (n : Node) (value width : Nat)
    (next : Activity) (h0 : 0 < width) :
    n.transmit (waveform par value width) next =
      { n with
        ie := false
        tx := value.testBit (width - 1)
        act := .transmitting (n.clock + par.bitPeriod * width)
        sched := slotChanges par n.clock value width ++
          [{ time := n.clock + par.bitPeriod * width, level := false }]
        ending := .close next } := by
  rcases n.transmit_cases (waveform par value width) next with ⟨h, _⟩ | ⟨_, he⟩
  · obtain ⟨w, rfl⟩ : ∃ k, width = k + 1 := ⟨width - 1, by omega⟩
    simp [waveform, bitSegs] at h
  · rw [he, Node.drive_waveform par hw _ _ _ _ h0]
    rfl

end Sys2Proof.Machine
end

