-- ==== Sys2Proof/Tests/Slice0.lean ====
section
/-! SUPPORT. The author's own tests: expected values are the spec's own (spec/95_test_vectors.md, or the
encodings of spec/30_encoding.md), and for each statement with hypotheses a state that meets them. -/

namespace Sys2Proof.Tests

open Sys2Proof Sys2Proof.Machine

/-! ## Small states -/

/-- The stated constants with an inverting receive pin. -/
def par : Config := Config.standard true

/-- The same with the alternative policy. -/
def latching : Config := { par with maskedEdges := .latchOne }

/-- A node at address 5 after `INIT` (P1). -/
def node (role : Role) : Node := Node.initialise 2 3 5 role Node.powerOn

/-- A bus with that node alone on it. -/
def bus (n : Node) : State :=
  { par := par, now := n.clock, wire := false, self := n, peers := [], inbox := [], port := none }

/-- A bus whose node has a clock and a decoder state `(last, bits, ign, sr)`. -/
def decoding (role : Role) (clock last bits ign : Nat) (sr : ShiftReg) : State :=
  bus { node role with
    clock := clock
    dec := { lastEdgeTimestamp := last, bitsAccumulated := bits, ignoreRemaining := ign, shiftRegister := sr } }

/-- A node that is driving a closed transmission until 80. -/
def sending : Node :=
  { node .listener with ie := false, act := .transmitting 80, ending := .close .idle, clock := 80 }

/-- A node that waits for a response until 11345. -/
def waitingNode : Node := { node .controller with act := .waiting 11345, clock := 11345 }

/-- The node after an operation, if it completes. -/
def after (i : Instr) (s : State) : Option Node :=
  match exec i s with
  | .next t => some t.self
  | _ => none

/-- The decoder state after an edge. -/
def decAfter (level : Level) (s : State) : Option FrameDecodeState :=
  (after (.edge level) s).map Node.dec

/-! ## Well-formedness refuses what no field can carry -/

theorem test_wf_refuses_wide_receive_pin : (Instr.init 256 3 5 .listener).wellFormed = false := by decide
theorem test_wf_refuses_wide_transmit_pin : (Instr.init 2 256 5 .listener).wellFormed = false := by decide
theorem test_wf_refuses_wide_address : (Instr.init 2 3 16 .listener).wellFormed = false := by decide
theorem test_wf_refuses_wide_payload :
    (Instr.setp (BitVec.ofInt 32 8388608)).wellFormed = false ∧
      (Instr.setp (BitVec.ofInt 32 (-8388609))).wellFormed = false := by decide
theorem test_wf_refuses_wide_target : (Instr.req 16).wellFormed = false := by decide
theorem test_wf_refuses_wide_value : (Instr.xmit 16777216 4).wellFormed = false := by decide
theorem test_wf_refuses_wide_width : (Instr.xmit 5 32).wellFormed = false := by decide

/-! ## Every constructor decodes from its bits, written out from the spec's patterns -/

theorem test_decode_bit1 : decode ⟨.symbol, 16, 0b1111111111100000⟩ = .ok .bit1 := by decide
theorem test_decode_bit0 : decode ⟨.symbol, 16, 0b0000000000011111⟩ = .ok .bit0 := by decide
theorem test_decode_wake : decode ⟨.symbol, 5, 0b11111⟩ = .ok .wake := by decide
theorem test_decode_release : decode ⟨.symbol, 1, 0b0⟩ = .ok .release := by decide
theorem test_decode_addr : decode ⟨.frame, 4, 0b0101⟩ = .ok (.addr 5) := by decide
theorem test_decode_data :
    decode ⟨.frame, 24, 0b111111111111111110011100⟩ = .ok (.data 0xFFFF9C) := by decide
theorem test_decode_edge : decode ⟨.event, 1, 0b1⟩ = .ok (.edge true) := by decide
theorem test_decode_init :
    decode ⟨.command, 32, 0b00100000000000100000001100010101⟩ = .ok (.init 2 3 5 .controller) := by decide
theorem test_decode_setp :
    decode ⟨.command, 32, 0b01000000111111111111111110011100⟩ = .ok (.setp (BitVec.ofInt 32 (-100))) := by
  decide
theorem test_decode_req :
    decode ⟨.command, 32, 0b01100000000000000000000000000101⟩ = .ok (.req 5) := by decide
theorem test_decode_xmit :
    decode ⟨.command, 32, 0b10000100000000000000000000000101⟩ = .ok (.xmit 5 4) := by decide

/-- The reserved words of V9, and the rows of the table that share one byte. -/
theorem test_decode_rejects_and_shared_byte :
    decodeTableWord 32 0x00000000 = none ∧ decodeTableWord 32 0xA0000000 = none ∧
      decodeTableWord 32 0x60000010 = none ∧ decodeTableWord 32 0x41000000 = none ∧
      decodeTableWord 8 0b11111 = some .wake ∧ decodeTableWord 8 0 = some .release ∧
      decodeTableWord 8 1 = some (.edge true) ∧ decodeTableWord 8 0b0101 = some (.addr 5) ∧
      decodeTableWord 8 0b10000 = none ∧ decodeTableWord 24 0xFFFF9C = some (.data 0xFFFF9C) := by decide

/-! ## Symbols and frames -/

/-- R81. -/
theorem test_bit1_falls_after_the_body :
    (after .bit1 (bus (node .listener))).map (fun n => (n.tx, n.sched)) = some (true, [⟨55, false⟩]) := by
  decide

/-- R82, at the boundary where a wake pulse that began at 0 has ended: the pin falls at 25 (R159). -/
theorem test_bit0_follows_a_wake_pulse :
    (after .bit0 (bus { node .controller with
      clock := 25, tx := true, act := .transmitting 25, ending := .hold })).map
        (fun n => (n.tx, n.sched, n.act)) = some (false, [⟨80, true⟩], .transmitting 105) := by decide

/-- R159: high for 25, and `WAKE` does not write `ie`. -/
theorem test_wake_is_high_for_25 :
    (after .wake (bus (node .controller))).map (fun n => (n.tx, n.sched, n.act, n.ie)) =
      some (true, [], .transmitting 25, true) := by decide

/-- R152. -/
theorem test_release_lowers_the_pin :
    (after .release (bus { node .listener with
      clock := 80, tx := true, act := .transmitting 80, ending := .hold })).map
        (fun n => (n.tx, n.act)) = some (false, .idle) := by decide

/-- The segments of V4a. -/
theorem test_addr_sends_0101 :
    (after (.addr 5) (bus (node .controller))).map (fun n => (n.tx, n.sched)) =
      some (false, [⟨55, true⟩, ⟨80, true⟩, ⟨135, false⟩, ⟨160, false⟩, ⟨215, true⟩, ⟨240, true⟩,
        ⟨295, false⟩]) := by decide

/-- The last slot of V4c. -/
theorem test_data_ends_with_the_marker_of_slot_23 :
    (after (.data 0xFFFF9C) (bus (node .listener))).map (fun n => (n.tx, n.sched.getLast?, n.act)) =
      some (true, some ⟨1895, true⟩, .transmitting 1920) := by decide

/-! ## The decoder -/

/-- V1 rows 3, 4, 9, 10 and V1b row 3. -/
theorem test_edge_classes :
    decAfter true (decoding .controller 1074 1000 3 0 0b101) = some ⟨1000, 3, 0, 0b101⟩ ∧
      decAfter true (decoding .controller 1075 1000 3 0 0b101) = some ⟨1075, 4, 0, 0b1011⟩ ∧
      decAfter false (decoding .controller 1160 1000 3 0 0b101) = some ⟨1160, 4, 0, 0b1010⟩ ∧
      decAfter true (decoding .controller 1161 1000 3 0 0b101) = some ⟨1161, 0, 0, 0⟩ ∧
      decAfter false (decoding .listener 1160 1000 2 7 0b10) = some ⟨1160, 2, 6, 0b10⟩ := by decide

/-- P1's MATCH, P2's MISS (the same edge at another address) and P3's DATA. -/
theorem test_edge_dispatch :
    (after (.edge true) (decoding .listener 1320 1240 3 0 0b010)).map (fun n => (n.act, n.ie, n.dec)) =
        some (.transmitting 3240, false, ⟨1320, 0, 0, 0⟩) ∧
      decAfter false (decoding .listener 1320 1240 3 0 0b011) = some ⟨1320, 0, 24, 0⟩ ∧
      (after (.edge false) (decoding .controller 6920 6840 23 0 0x7FFFCE)).map
        (fun n => (n.pay.incoming.toInt, n.pay.receivedFlag, n.dec)) =
          some (-100, true, ⟨6920, 0, 0, 0⟩) := by decide

/-! ## The main context -/

/-- R194 and D8: everything is at its reset value again, the clock too. -/
theorem test_init_resets :
    (after (.init 2 3 5 .listener) (decoding .controller 900 800 3 0 5)).map
      (fun n => (n.cfg.ownAddress, n.cfg.role, n.dec, n.ie, n.clock)) =
        some (5, .listener, ⟨0, 0, 0, 0⟩, true, 0) := by decide

/-- V1d after an `INIT` at 900: the first edge is judged by the time since then, 74, 75 and 161. -/
theorem test_first_edge_after_a_late_init :
    let late := Node.initialise 2 3 5 .listener { Node.powerOn with clock := 900 }
    decAfter true (bus (late.tick 74)) = some ⟨0, 0, 0, 0⟩ ∧
      decAfter true (bus (late.tick 75)) = some ⟨75, 1, 0, 1⟩ ∧
      decAfter true (bus (late.tick 161)) = some ⟨161, 0, 0, 0⟩ := by decide

/-- V8: −100 is kept whole and its low 24 bits are what a match sends. -/
theorem test_setp_minus_100 :
    (after (.setp (BitVec.ofInt 32 (-100))) (bus (node .listener))).map
      (fun n => (n.pay.outgoing.toInt, truncTo 24 n.pay.outgoing, n.ie)) =
        some (-100, 0xFFFF9C, true) := by decide

/-- V7a, the schedule of `REQ(3)` at 1000, releases included, and V7e. -/
theorem test_req_3_at_1000 :
    (after (.req 3) (bus { node .controller with clock := 1000 })).map (fun n => (n.tx, n.sched)) =
        some (true, [⟨1025, false⟩, ⟨1080, true⟩, ⟨1105, false⟩, ⟨1160, true⟩, ⟨1185, true⟩,
          ⟨1240, false⟩, ⟨1265, true⟩, ⟨1320, false⟩, ⟨1345, false⟩]) ∧
      after (.req 21) (bus (node .controller)) = after (.req 5) (bus (node .controller)) := by decide

/-- V4a `XMIT(0b1010, 4)`, V4d, and V4b `XMIT(x, 0)`. -/
theorem test_xmit_1010_and_nothing :
    (after (.xmit 0b1010 4) (bus (node .listener))).map (fun n => (n.tx, n.ie, n.sched)) =
        some (true, false, [⟨55, false⟩, ⟨80, false⟩, ⟨135, true⟩, ⟨160, true⟩, ⟨215, false⟩,
          ⟨240, false⟩, ⟨295, true⟩, ⟨320, false⟩]) ∧
      (after (.xmit 7 0) (bus Node.powerOn)).map (fun n => (n.tx, n.ie, n.act)) =
        some (false, true, .idle) := by decide

/-! ## Single steps -/

/-- V7c: with the flag set at the very deadline the value is returned, not 0. -/
theorem test_flag_wins_the_tie :
    (match step (bus { waitingNode with pay := ⟨0, 42, true⟩ }) with
      | .next t => some (t.self.result, t.self.pay.receivedFlag)
      | _ => none) = some (some 42, false) := by decide

/-- R171, R211: a peer that starts again at the very end of a request's transmission does not reach the
requester's decoder, though interrupts are enabled. -/
theorem test_last_instant_is_masked :
    (match step { bus (sending.closeTransmission (.waiting 10080)) with
        peers := [{ sending with tx := true, act := .transmitting 160 }] } with
      | .next t => some (t.self.ie, t.self.dec.lastEdgeTimestamp, t.wire)
      | _ => none) = some (true, 0, true) := by decide

/-- R174, R211: at a deadline, a peer's operation that raises the wire is presented first. -/
theorem test_wire_before_deadline :
    (match step { bus waitingNode with
        peers := [node .listener], inbox := [⟨11345, ⟨1, encode (.xmit 1 1)⟩⟩] } with
      | .next t => some (t.port.isSome, t.self.act)
      | _ => none) = some (true, .waiting 11345) := by decide

/-- The word of a table row runs as the first instruction after power-on. -/
theorem test_first_instruction_after_reset :
    (match step (State.reset.withFetchWord 32 0x20020305) with
      | .next t => some (t.self.cfg.ownAddress, t.self.ie)
      | _ => none) = some (5, true) := by decide

/-! ## States that meet the hypotheses of the statements

Each theorem is named for its statement; where a statement has several clauses, each is met at a boundary
value. -/

theorem witness_DecodeOfEncodeIsTheOperation : (Instr.xmit 16777215 31).wellFormed = true := by decide

theorem witness_EncodeOfDecodeIsTheCode : decode ⟨.command, 32, 0x9FFFFFFF⟩ = .ok (.xmit 16777215 31) := by
  decide

theorem witness_CommandWordDecodesExactlyUnderItsMask : (0xFFFFFFFF : Nat) < 2 ^ 32 := by decide

/-- A bus with a code at the port of its own node. -/
def presented (c : Code) : State := { bus (node .listener) with port := some ⟨0, c⟩ }

/-- Each clause of R103 at a boundary: the lowest and the highest reserved `op`, one must-be-zero bit of
each field. -/
theorem witness_ReservedCommandWordIsRefused :
    (presented ⟨.command, 32, 0⟩).port = some ⟨0, ⟨.command, 32, 0⟩⟩ ∧
      0 / 2 ^ 29 = 0 ∧ 0xA0000000 / 2 ^ 29 = 5 ∧ 0xC0000000 / 2 ^ 29 = 6 ∧ 0xFFFFFFFF / 2 ^ 29 = 7 ∧
      (0x21000000 / 2 ^ 29 = 1 ∧ 0x21000000 / 2 ^ 24 % 2 ^ 5 ≠ 0) ∧
      (0x20000080 / 2 ^ 29 = 1 ∧ 0x20000080 / 2 ^ 5 % 2 ^ 3 ≠ 0) ∧
      (0x50000000 / 2 ^ 29 = 2 ∧ 0x50000000 / 2 ^ 24 % 2 ^ 5 ≠ 0) ∧
      (0x61000000 / 2 ^ 29 = 3 ∧ 0x61000000 / 2 ^ 24 % 2 ^ 5 ≠ 0) ∧
      (0x60800000 / 2 ^ 29 = 3 ∧ 0x60800000 / 2 ^ 4 % 2 ^ 20 ≠ 0) := by decide

theorem witness_StepRunsThePresentedOperation :
    (presented (encode (.req 3))).port = some ⟨0, encode (.req 3)⟩ ∧ decode (encode (.req 3)) = .ok (.req 3) := by
  decide

/-- A bus with two peers and a code at the port of the second. -/
def presentedToPeer : State :=
  { bus (node .controller) with
    peers := [node .listener, node .listener], port := some ⟨2, encode (.req 3)⟩ }

theorem witness_StepRunsAPeersOperationOnThatPeer :
    presentedToPeer.port = some ⟨1 + 1, encode (.req 3)⟩ ∧ decode (encode (.req 3)) = .ok (.req 3) ∧
      presentedToPeer.peers[1]? = some (node .listener) ∧
      ∃ u, exec (.req 3) { presentedToPeer with port := none, self := node .listener } = .next u :=
  ⟨rfl, by decide, rfl, _, rfl⟩

theorem witness_OnlyAPresentedOperationCanStop : (bus (node .listener)).port = none := by decide

/-- A refusal of each kind. -/
theorem witness_StepRefusesOnlyForTheseReasons :
    (∃ r, step (presented ⟨.command, 32, 0⟩) = .refused r) ∧
      (∃ r, step { bus (node .listener) with port := some ⟨1, encode .wake⟩ } = .refused r) ∧
      (∃ r, step { bus waitingNode with port := some ⟨0, encode (.req 0)⟩ } = .refused r) :=
  ⟨⟨_, rfl⟩, ⟨_, rfl⟩, ⟨_, rfl⟩⟩

theorem witness_OperationsTouchOnlyTheirNode :
    ∃ t, exec (.setp 1) (bus (node .listener)) = .next t := ⟨_, rfl⟩

/-- For `Bit1IsHighThenLow`, `Bit0IsLowThenHigh`, `WakeIsOneHighPulse`, `ReleaseReturnsThePinToLow` and
`FramesAreTheirBitsAsSlots`: a symbol may begin at an idle node, and at the very end of a bare symbol. -/
theorem witness_symbols :
    par.bitPeriod = 80 ∧ par.pulsePeriod = 25 ∧ par.wf = true ∧
      (bus (node .listener)).self.symbolBoundary = true ∧
      (bus { sending with ending := .hold }).self.symbolBoundary = true := by decide

theorem witness_SymbolsAreRefusedWhereNoneMayBegin :
    waitingNode.act = .waiting 11345 ∧
      (sending.act = .transmitting 80 ∧ sending.ending ≠ .hold) ∧
      ({ sending with ending := .hold, sched := [⟨81, true⟩] } : Node).sched ≠ [] ∧
      ({ sending with ending := .hold, clock := 79 } : Node).clock < 80 := by decide

theorem witness_HostOperationsAreRefusedUnlessIdle :
    sending.act ≠ .idle ∧ waitingNode.act ≠ .idle := by decide

/-- For `XmitStartsItsWaveform`, `XmitOfWidthZeroEndsAtOnce`, `ReqStartsWakePulseAndAddress`,
`RequestMarkersFallOnWholeBitPeriods`, `SetpReplacesOutgoing` and `InitGivesTheResetState`. -/
theorem witness_host_operations :
    (bus (node .listener)).par.wf = true ∧ (bus (node .listener)).self.act = .idle ∧ 0 < 1 ∧
      par.bitPeriod = 80 ∧ par.pulsePeriod = 25 ∧ par.addrW = 4 := by decide

theorem witness_XmitSendsOnlyTheLowBits : 0x35 % 2 ^ 4 = 0b0101 % 2 ^ 4 := by decide

/-- Each clause; the masked interval at its last instant, 80, and just after it, 81. -/
theorem witness_UntakenEdgesAreLostOrLatched :
    Node.powerOn.cfgSet = false ∧
      (sending.cfgSet = true ∧ sending.ie = false ∧ par.maskedEdges = .drop) ∧
      latching.maskedEdges = .latchOne ∧
      (let n := sending.closeTransmission .idle;
        n.cfgSet = true ∧ n.maskedThrough = some 80 ∧ n.clock ≤ 80) ∧
      (let n := { sending with ending := .hold, ie := true, maskedThrough := some 79 };
        n.cfgSet = true ∧ n.ie = true ∧ (∀ t ∈ n.maskedThrough, t < n.clock) ∧ n.act = .transmitting 80) ∧
      (let n := { sending.closeTransmission .idle with clock := 81 };
        n.cfgSet = true ∧ n.ie = true ∧ (∀ t ∈ n.maskedThrough, t < n.clock) ∧ n.act = .idle) := by decide

/-- Both clauses at their boundary: 74 and 75. -/
theorem witness_GlitchIsIgnoredAndAnyOtherEdgeIsTheReference :
    (decoding .listener 1074 1000 0 0 0).self.Listening ∧ 1074 - 1000 < par.glitchT ∧
      par.glitchT ≤ 1075 - 1000 := by decide

theorem witness_FrameTimeoutResynchronises :
    (decoding .listener 1161 1000 3 0 5).self.Listening ∧ par.wf = true ∧ par.frameT < 1161 - 1000 := by
  decide

/-- For `SuppressedEdgeIsCountedOff` and `BitIsShiftedInAndCounted`: consecutive-bit timing at both ends,
75 and 160. -/
theorem witness_accepted_edges :
    (decoding .listener 1075 1000 3 24 5).self.Listening ∧ par.glitchT ≤ 1075 - 1000 ∧
      1160 - 1000 ≤ par.frameT ∧ 0 < (decoding .listener 1075 1000 3 24 5).self.dec.ignoreRemaining ∧
      (decoding .controller 1160 1000 22 0 5).self.Listening ∧
      (decoding .controller 1160 1000 22 0 5).self.dec.ignoreRemaining = 0 ∧
      22 + 1 ≠ par.frameW (decoding .controller 1160 1000 22 0 5).self.cfg.role := by decide

/-- P1's last edge: address 5 completed at spacing 80. -/
theorem witness_AddressMatchTransmitsOutgoing :
    let s := decoding .listener 1320 1240 3 0 0b010
    s.self.Listening ∧ s.par.wf = true ∧ s.par.glitchT ≤ s.self.clock - s.self.dec.lastEdgeTimestamp ∧
      s.self.clock - s.self.dec.lastEdgeTimestamp ≤ s.par.frameT ∧ s.self.dec.ignoreRemaining = 0 ∧
      s.self.cfg.role = .listener ∧ s.self.dec.bitsAccumulated + 1 = s.par.addrW ∧
      (s.self.dec.shiftRegister <<< 1 ||| (BitVec.ofBool true).setWidth 32) =
        s.self.cfg.ownAddress.setWidth 32 := by decide

/-- R133's example: 6 is not 5. -/
theorem witness_AddressMismatchSuppresses :
    let s := decoding .listener 1320 1240 3 0 0b011
    s.self.Listening ∧ s.par.glitchT ≤ s.self.clock - s.self.dec.lastEdgeTimestamp ∧
      s.self.clock - s.self.dec.lastEdgeTimestamp ≤ s.par.frameT ∧ s.self.dec.ignoreRemaining = 0 ∧
      s.self.cfg.role = .listener ∧ s.self.dec.bitsAccumulated + 1 = s.par.addrW ∧
      (s.self.dec.shiftRegister <<< 1 ||| (BitVec.ofBool false).setWidth 32) ≠
        s.self.cfg.ownAddress.setWidth 32 := by decide

theorem witness_ControllerCapturesItsFrame :
    let s := decoding .controller 6920 6840 23 0 0x7FFFCE
    s.self.Listening ∧ s.par.dataW = 24 ∧ s.par.glitchT ≤ s.self.clock - s.self.dec.lastEdgeTimestamp ∧
      s.self.clock - s.self.dec.lastEdgeTimestamp ≤ s.par.frameT ∧ s.self.dec.ignoreRemaining = 0 ∧
      s.self.cfg.role = .controller ∧ s.self.dec.bitsAccumulated + 1 = 24 := by decide

/-- Both clauses at their boundary. -/
theorem witness_SignExtensionLaw :
    2 ^ 23 ≤ (0x800000 : ShiftReg).toNat % 2 ^ 24 ∧ (0x7FFFFF : ShiftReg).toNat % 2 ^ 24 < 2 ^ 23 := by
  decide

theorem witness_EdgeDecrementsOrContributesNeverBoth :
    ∃ t, exec (.edge true) (decoding .listener 1160 1000 2 7 2) = .next t ∧ 1160 - 1000 ≤ par.frameT ∧
      t.self.dec.ignoreRemaining < (decoding .listener 1160 1000 2 7 2).self.dec.ignoreRemaining :=
  ⟨_, rfl, by decide, by decide⟩

theorem witness_RoleLimitsWhatAnEdgeCanDo :
    (∃ t, exec (.edge true) (decoding .listener 1320 1240 3 0 2) = .next t) ∧
      (∃ t, exec (.edge true) (decoding .controller 1320 1240 3 0 2) = .next t) ∧
      (node .listener).cfg.role = .listener ∧ (node .controller).cfg.role = .controller :=
  ⟨⟨_, rfl⟩, ⟨_, rfl⟩, rfl, rfl⟩

/-- Runs at both ends of consecutive-bit timing. -/
theorem witness_BitsAreAssembledFirstBitFirst :
    par.wf = true ∧ (node .listener).Listening ∧
      (node .listener).dec = ⟨(node .listener).clock, 0, 0, 0⟩ ∧
      BitTimed par [(75, true), (160, false), (80, true)] ∧
      [(75, true), (160, false), (80, true)].length < par.frameW (node .listener).cfg.role := by decide

theorem witness_ControllerReceivesThePayloadAtItsPin :
    par.wf = true ∧ par.dataW = 24 ∧ (node .controller).Listening ∧
      (node .controller).cfg.role = .controller ∧
      (node .controller).dec = ⟨(node .controller).clock, 0, 0, 0⟩ ∧
      BitTimed par ((List.range 24).map fun k => (80, (0xFFFF9C : Payload).getLsbD (23 - k))) ∧
      ((List.range 24).map fun k => (80, (0xFFFF9C : Payload).getLsbD (23 - k))).map Prod.snd =
        (List.range 24).map (fun k => (0xFFFF9C : Payload).getLsbD (23 - k)) := by decide

/-- Its own address and another. -/
theorem witness_ListenerAnswersExactlyItsAddress :
    par.wf = true ∧ par.addrW = 4 ∧ (node .listener).Listening ∧ (node .listener).cfg.role = .listener ∧
      (node .listener).dec = ⟨(node .listener).clock, 0, 0, 0⟩ ∧
      BitTimed par [(80, false), (75, true), (160, false), (80, true)] ∧
      [(80, false), (75, true), (160, false), (80, true)].map Prod.snd =
        [(5 : BusAddr).getLsbD 3, (5 : BusAddr).getLsbD 2, (5 : BusAddr).getLsbD 1, (5 : BusAddr).getLsbD 0] ∧
      (5 : BusAddr) = (node .listener).cfg.ownAddress ∧ (6 : BusAddr) ≠ (node .listener).cfg.ownAddress := by
  decide

theorem witness_SuppressionDiscardsTheNextEdges :
    let n := (decoding .listener 1320 1320 0 24 0).self
    n.Listening ∧ n.dec.lastEdgeTimestamp = n.clock ∧ BitTimed par [(75, true), (160, false)] ∧
      [(75, true), (160, false)].length ≤ n.dec.ignoreRemaining := by decide

theorem witness_MarkerAlignedReceptionRecoversTheValue :
    par.wf = true ∧ (node .controller).Listening ∧ 0 < 23 ∧ 23 < par.frameW (node .controller).cfg.role ∧
      (node .controller).dec = ⟨(node .controller).clock, 0, 0, 0⟩ := by decide

theorem witness_ChangedWireIsShownToEveryNode :
    let s := bus { node .controller with tx := true };
    s.port = none ∧ s.wire ≠ s.nodes.any (fun n => n.cfgSet && n.tx) := by decide

/-- An edge latched in a transmission that has just ended. -/
theorem witness_LatchedEdgeIsTakenWithThePresentLevel :
    let s := bus { sending.closeTransmission .idle with pend := true };
    s.port = none ∧ s.wire = s.nodes.any (fun n => n.cfgSet && n.tx) ∧
      ∃ n ∈ s.nodes, n.pend = true ∧ n.Enabled := by decide

/-- A change due at this very instant, and one a microsecond later at a peer. -/
theorem witness_DueChangeIsPutOnThePin :
    let n := { sending with sched := [⟨80, false⟩] };
    let s := { bus n with peers := [{ sending with sched := [⟨81, false⟩] }] };
    s.Shown ∧ (∃ n ∈ s.nodes, ∃ c ∈ n.sched.head?, c.time ≤ n.clock) ∧
      n.sched = ⟨80, false⟩ :: [] ∧ 80 ≤ n.clock ∧
      ∃ n ∈ s.nodes, ∀ c ∈ n.sched.head?, n.clock < c.time := by
  refine ⟨by decide, by decide, rfl, by decide, ?_⟩
  exact ⟨_, List.mem_cons_of_mem _ (List.mem_singleton.mpr rfl), by decide⟩

/-- A waiting node with a line due at it: an edge at its deadline, or a `SETP` before it. -/
theorem witness_DueLinesReachThePortEdgesFirst :
    (let s := { bus waitingNode with inbox := [⟨11345, ⟨0, encode (.edge true)⟩⟩] };
      s.Shown ∧ s.NoChangeDue ∧ (∃ a ∈ s.inbox, a.issue.code.format = .event ∧ a.time ≤ s.now) ∧
        ∃ t, step s = .next t) ∧
    (let s := { bus { waitingNode with clock := 11344 } with inbox := [⟨11344, ⟨0, encode (.setp 1)⟩⟩] };
      s.Settled ∧ s.NoWaitAnswered ∧ s.NoDeadlineReached ∧ ∃ a ∈ s.inbox, a.time ≤ s.now) := by
  refine ⟨⟨by decide, by decide, by decide, _, rfl⟩, ⟨by decide, by decide, by decide, ?_⟩, ?_, ?_, by decide⟩
  all_goals intro n hn; rcases List.mem_singleton.mp hn with rfl
  · intro e next h; cases h
  · exact fun _ _ => rfl
  · intro d h; injection h with h; subst h; decide

theorem witness_FinishedTransmissionEnablesInterrupts :
    let s := bus sending
    s.Shown ∧ s.NoChangeDue ∧ s.NoEdgeDue ∧ s.nodes[0]? = some sending ∧
      sending.act = .transmitting 80 ∧ sending.ending = .close .idle ∧ sending.sched = [] ∧
      80 ≤ sending.clock := by decide

/-- The flag set at the deadline; the deadline reached without it; and the deadline reached while a `SETP`
for that instant stands first for its node. -/
theorem witness_WaitEndsWithTheValueOrWithZero :
    (let n := { waitingNode with pay := ⟨0, 42, true⟩ };
      (bus n).Settled ∧ (bus n).nodes[0]? = some n ∧ n.act = .waiting 11345 ∧ n.pay.receivedFlag = true) ∧
    ((bus waitingNode).Settled ∧ (bus waitingNode).NoWaitAnswered ∧ (bus waitingNode).NothingPresented ∧
      waitingNode.act = .waiting 11345 ∧ 11345 ≤ waitingNode.clock) ∧
    (let a : Arrival := ⟨11345, ⟨1, encode (.setp 1)⟩⟩
      let s := { bus waitingNode with peers := [node .listener], inbox := [a] };
      ∃ t m u, step s = .next t ∧ t.nodes[0]? = some m ∧ m.act = .idle ∧
        s.inbox.find? (fun b => decide (b.issue.node = a.issue.node ∧ b.time ≤ s.now)) = some a ∧
        step { s with port := some a.issue } = .next u) := by
  have settled : ∀ n : Node, (∃ d, n.act = .waiting d) → (bus n).NoTransmissionOver := by
    intro n ⟨d, hd⟩ m hm e next h
    rcases List.mem_singleton.mp hm with rfl
    rw [hd] at h; cases h
  refine ⟨⟨⟨by decide, by decide, by decide, settled _ ⟨_, rfl⟩⟩, rfl, rfl, rfl⟩,
    ⟨⟨by decide, by decide, by decide, settled _ ⟨_, rfl⟩⟩, ?_, by decide, rfl, by decide⟩,
    _, _, _, rfl, rfl, by decide, by decide, rfl⟩
  intro n hn d _
  rcases List.mem_singleton.mp hn with rfl
  rfl

/-- For `ParametersAndNodesStay`, `TimePassesAlikeForEveryNode` and `TimePassesOnlyWhenNothingIsDue`: a step
that lets time pass, and a late `INIT`. -/
theorem witness_steps_that_answer :
    (∃ t, step (bus { node .listener with clock := 7, act := .transmitting 80, ending := .close .idle }) = .next t) ∧
      ∃ t, step { bus { node .listener with clock := 900 } with
        port := some ⟨0, encode (.init 2 3 5 .listener)⟩ } = .next t ∧ t.self.clock = 0 :=
  ⟨⟨_, rfl⟩, _, rfl, by decide⟩

/-- For `OnlyInitWritesTheConfiguration` and `OnlySetpAndInitWriteOutgoing`: a step in which `INIT`
changes both. -/
theorem witness_OnlyInitAndSetpWrite :
    let n : Node := { node .listener with pay := ⟨9, 0, false⟩ };
    let s := { bus n with port := some ⟨0, encode (.init 1 1 1 .controller)⟩ };
    ∃ t m, step s = .next t ∧ s.nodes[0]? = some n ∧ t.nodes[0]? = some m ∧ m.cfg ≠ n.cfg ∧
      m.pay.outgoing ≠ n.pay.outgoing :=
  ⟨_, _, rfl, rfl, rfl, by decide, by decide⟩

/-- A flag set by a decoder step, and one cleared by the consumer. -/
theorem witness_ReceivedFlagIsSetByTheDecoderAndClearedByTheConsumer :
    (let s := { decoding .controller 6920 6840 23 0 0x7FFFCE with port := some ⟨0, encode (.edge false)⟩ };
      ∃ t m, step s = .next t ∧ t.nodes[0]? = some m ∧ s.self.pay.receivedFlag = false ∧
        m.pay.receivedFlag = true) ∧
    (let n : Node := { waitingNode with pay := ⟨0, 42, true⟩ };
      ∃ t m, step (bus n) = .next t ∧ t.nodes[0]? = some m ∧ n.pay.receivedFlag = true ∧
        m.pay.receivedFlag = false) :=
  ⟨⟨_, _, rfl, rfl, by decide, by decide⟩, ⟨_, _, rfl, rfl, by decide, by decide⟩⟩

/-- A controller in the middle of a reception is in good order, and its next step answers. -/
theorem witness_EveryStepKeepsGoodOrder :
    (decoding .controller 1080 1000 3 0 5).Inv ∧
      ∃ t, step (decoding .controller 1080 1000 3 0 5) = .next t := by
  refine ⟨⟨by decide, fun n hn => ?_⟩, _, rfl⟩
  rcases List.mem_singleton.mp hn with rfl
  exact ⟨by unfold Node.DecoderInv; decide, ⟨by decide, by decide, fun h => by cases h⟩,
    ⟨by decide, by decide, by decide⟩, List.Pairwise.nil, fun c hc => (by cases hc),
    fun t _ c hc => (by cases hc), fun t ht => (by cases ht), fun t ht => (by cases ht)⟩

/-- For `LoneXmitRunsToItsEnd`, `LoneRequestWithoutReplyReturnsZero` and `LoneRequestReturnsAStaleValue`. -/
theorem witness_lone_operations :
    let s := bus (node .controller)
    s.Alone ∧ s.par.wf = true ∧ s.par.maskedEdges = .drop ∧ s.self.act = .idle ∧ s.self.tx = false ∧
      s.self.pay.receivedFlag = false ∧
      (bus { node .controller with pay := ⟨0, 7, true⟩ }).Alone := by decide

end Sys2Proof.Tests
end

section
/-! SUPPORT. What running an operation does to the nodes, how time passes in an event, and when it may; then
the statements on refusals and on time (spec/00_scope.md R11, R13; spec/60_exceptions.md R206, R216, R225). -/

namespace Sys2Proof.Machine

open Sys2Proof

/-! ### One node: what an operation makes of it, and its clock -/

/-- What an operation makes of the node it acts on, where it is not refused (`exec_cases` ties it to `exec`). -/
def nodeEffect (par : Config) : Instr → Node → Node
  | .bit1 => fun n => n.drive (bitSegs par true) .hold
  | .bit0 => fun n => n.drive (bitSegs par false) .hold
  | .wake => fun n => n.drive (wakeSegs par) .hold
  | .release => fun n => { n with tx := false, act := .idle, sched := [], ending := .hold }
  | .addr a => fun n => n.drive (waveform par a.toNat par.addrW) .hold
  | .data d => fun n => n.drive (waveform par d.toNat par.dataW) .hold
  | .edge level => Node.onTransition par level
  | .init rxPin txPin addr role => Node.initialise rxPin txPin addr role
  | .setp value => Node.setPayload value
  | .req target => Node.request par target
  | .xmit value width => fun n => n.xmit par value width .idle

/-- An idle node is at a symbol boundary, so a symbol is refused only at a node that is not idle. -/
theorem State.symbolOp_next_or_busy (f : Node → Node) (s : State) :
    s.symbolOp f = .next (s.onSelf f) ∨ (s.self.act ≠ .idle ∧ s.symbolOp f = .refused .busy) := by
  rcases s.symbolOp_cases f with ⟨_, he⟩ | ⟨hb, he⟩
  · exact .inl he
  · refine .inr ⟨fun hidle => ?_, he⟩
    rw [s.self.symbolBoundary_iff.mpr (.inl hidle)] at hb
    cases hb

/-- A host operation runs, or is refused at a node that is not idle. -/
theorem State.hostOp_next_or_busy (f : Node → Node) (s : State) :
    s.hostOp f = .next (s.onSelf f) ∨ (s.self.act ≠ .idle ∧ s.hostOp f = .refused .busy) :=
  (s.hostOp_cases f).imp_left And.right

/-- An operation changes its own node by its effect and nothing else, or is refused as busy. -/
theorem exec_cases (i : Instr) (s : State) :
    exec i s = .next (s.onSelf (nodeEffect s.par i)) ∨ (s.self.act ≠ .idle ∧ exec i s = .refused .busy) := by
  cases i with
  | edge level => exact .inl rfl
  | bit1 | bit0 | wake | release | addr a | data d => exact s.symbolOp_next_or_busy _
  | init rxPin txPin addr role | setp value | req target | xmit value width =>
    exact s.hostOp_next_or_busy _

@[simp] theorem Node.drive_clock (n : Node) (segs : List Seg) (e : Ending) : (n.drive segs e).clock = n.clock := by
  obtain ⟨_, _, _, _, h⟩ := n.drive_cases segs e
  rw [h]

@[simp] theorem Node.transmit_clock (n : Node) (segs : List Seg) (next : Activity) :
    (n.transmit segs next).clock = n.clock := by
  obtain ⟨_, _, _, _, _, _, h⟩ := n.transmit_frame segs next
  rw [h]

@[simp] theorem Node.onMatch_clock (par : Config) (n : Node) : (n.onMatch par).clock = n.clock := by
  rw [Node.onMatch_eq, Node.transmit_clock, Node.frameDone_clock]

@[simp] theorem Node.maskEdge_clock (par : Config) (n : Node) : (n.maskEdge par).clock = n.clock := by
  rcases n.maskEdge_cases par with ⟨_, h⟩ | ⟨_, h⟩ <;> rw [h]

/-- A decoder step takes no time. -/
@[simp] theorem Node.edge_clock (par : Config) (level : Level) (n : Node) : (n.edge par level).clock = n.clock := by
  unfold Node.edge
  cases n.edgeLabel par level <;> simp

@[simp] theorem Node.onTransition_clock (par : Config) (level : Level) (n : Node) :
    (n.onTransition par level).clock = n.clock := by
  unfold Node.onTransition
  rcases n.takeInterrupt_cases par (Node.edge par level) with ⟨_, h⟩ | ⟨_, _, h⟩ | ⟨_, _, h⟩ <;> simp [h]

@[simp] theorem Node.takePending_clock (par : Config) (level : Level) (n : Node) :
    (n.takePending par level).clock = n.clock := by
  rcases n.takePending_cases par level with ⟨_, h⟩ | ⟨_, h⟩ <;> simp [h]

@[simp] theorem Node.applyChange_clock (n : Node) : n.applyChange.clock = n.clock := by
  rcases n.applyChange_cases with ⟨_, _, _, _, h⟩ | ⟨_, h⟩ <;> rw [h]

@[simp] theorem Node.finishTransmission_clock (n : Node) : n.finishTransmission.clock = n.clock := by
  rcases n.finishTransmission_cases with ⟨_, _, _, _, _, _, h⟩ | ⟨_, h⟩ <;> simp [h]

@[simp] theorem Node.takeAnswer_clock (n : Node) : n.takeAnswer.clock = n.clock := by
  rcases n.takeAnswer_cases with ⟨_, h⟩ | ⟨_, h⟩ <;> simp [h]

@[simp] theorem Node.timeOut_clock (n : Node) : n.timeOut.clock = n.clock := by
  rcases n.timeOut_cases with ⟨_, h⟩ | ⟨_, h⟩ <;> rw [h]

/-- No operation but `INIT` writes the clock, and `INIT` sets it to 0 (log entry 7). -/
theorem nodeEffect_clock (par : Config) (i : Instr) (n : Node) :
    (nodeEffect par i n).clock = n.clock ∨
      ((nodeEffect par i n).clock = 0 ∧ ∃ rxPin txPin addr role, i = .init rxPin txPin addr role) := by
  cases i with
  | init rxPin txPin addr role => exact .inr ⟨rfl, _, _, _, _, rfl⟩
  | edge level => exact .inl (n.onTransition_clock par level)
  | bit1 | bit0 | wake | addr a | data d => exact .inl (n.drive_clock _ _)
  | req target => exact .inl (Node.transmit_clock _ _ _)
  | xmit value width => exact .inl (n.transmit_clock _ _)
  | release | setp value => exact .inl rfl

/-! ### The operation at the port -/

/-- Only the number of a node that is there can be brought to the front. -/
theorem State.focus_eq_none (k : Nat) (s : State) (h : s.focus k = none) : s.nodes.length ≤ k := by
  cases k with
  | zero => cases h
  | succ j =>
    rcases s.focus_succ_cases j with ⟨hp, _⟩ | ⟨_, _, hf⟩
    · simpa [State.nodes] using hp
    · rw [hf] at h; cases h

/-- Bringing node `k` to the front shows that node, and putting it back changed changes node `k` alone. -/
theorem State.focus_eq_some (k : Nat) (s f : State) (h : s.focus k = some f) :
    s.nodes[k]? = some f.self ∧ f.par = s.par ∧
      ∀ g : Node → Node, (f.onSelf g).unfocus k = s.atNode k g := by
  cases k with
  | zero =>
    cases h
    exact ⟨rfl, rfl, fun _ => rfl⟩
  | succ j =>
    rcases s.focus_succ_cases j with ⟨_, hf⟩ | ⟨n, hp, hf⟩
    · rw [hf] at h; cases h
    · rw [hf] at h
      cases h
      refine ⟨hp, rfl, fun g => ?_⟩
      obtain ⟨hlt, hget⟩ := List.getElem?_eq_some_iff.mp hp
      simp [State.unfocus, State.focus, State.onSelf, State.atNode, hlt, hget, List.modify_eq_set_getElem?]

/-- With an operation at the port, a step rejects its encoding, finds no node, finds the node not idle, or
changes that node by the operation's effect. -/
theorem step_at_port (s : State) (q : Issue) (hq : s.port = some q) :
    (∃ e, decode q.code = .error e ∧ step s = .refused (.reservedEncoding e)) ∨
      (s.nodes.length ≤ q.node ∧ step s = .refused (.noSuchNode q.node)) ∨
      (∃ n, s.nodes[q.node]? = some n ∧ n.act ≠ .idle ∧ step s = .refused .busy) ∨
      (∃ i, decode q.code = .ok i ∧
        step s = .next (s.takePort.atNode q.node (nodeEffect s.par i))) := by
  rw [step_of_port s q hq, runPort]
  cases hd : decode q.code with
  | error e => exact .inl ⟨e, rfl, rfl⟩
  | ok i =>
    simp only [runOn]
    cases hf : s.takePort.focus q.node with
    | none => exact .inr (.inl ⟨s.takePort.focus_eq_none _ hf, rfl⟩)
    | some f =>
      obtain ⟨hn, hpar, hback⟩ := s.takePort.focus_eq_some q.node f hf
      rcases exec_cases i f with hx | ⟨hact, hx⟩
      · refine .inr (.inr (.inr ⟨i, rfl, ?_⟩))
        simp only [hx, hback, hpar, State.takePort_par]
      · exact .inr (.inr (.inl ⟨f.self, hn, hact, by simp only [hx]⟩))

/-- An operation at the port that is not refused has changed its node by its effect. -/
theorem step_at_port_next (s t : State) (q : Issue) (hq : s.port = some q) (h : step s = .next t) :
    ∃ i, decode q.code = .ok i ∧ t = s.takePort.atNode q.node (nodeEffect s.par i) := by
  rcases step_at_port s q hq with ⟨_, _, hs⟩ | ⟨_, hs⟩ | ⟨_, _, _, hs⟩ | ⟨i, hd, hs⟩ <;>
    rw [hs] at h <;> cases h
  exact ⟨i, hd, rfl⟩

/-- Settles O9: without an operation at the port the step answers, and with one `step_at_port` lists the refusals. -/
theorem stepRefusesOnlyForTheseReasons : Obligations.StepRefusesOnlyForTheseReasons := by
  intro s r hr
  cases hp : s.port with
  | none =>
    rw [step_of_no_port s hp] at hr
    cases hr
  | some q =>
    refine ⟨q, rfl, ?_⟩
    rcases step_at_port s q hp with ⟨e, hd, hs⟩ | ⟨hlen, hs⟩ | ⟨n, hn, hact, hs⟩ | ⟨i, _, hs⟩ <;>
      rw [hs] at hr <;> cases hr
    · exact .inl ⟨e, hd, rfl⟩
    · exact .inr (.inl ⟨hlen, rfl⟩)
    · exact .inr (.inr ⟨n, hn, hact, rfl⟩)

/-! ### How time passes in an event -/

/-- From `s` to `t`, `d` microseconds have passed for the scenario and on every node's counter, and no node
has come or gone. -/
def State.LaterBy (d : Nat) (s t : State) : Prop :=
  t.now = s.now + d ∧ t.nodes.map Node.clock = s.nodes.map fun n => n.clock + d

/-- The counter of one node after `d` microseconds. -/
theorem State.LaterBy.clock {d : Nat} {s t : State} (h : s.LaterBy d t) {k : Nat} {n : Node}
    (hn : s.nodes[k]? = some n) : ∃ m, t.nodes[k]? = some m ∧ m.clock = n.clock + d := by
  have hk := congrArg (fun l => l[k]?) h.2
  simpa [hn] using hk

/-- An operation of every node that leaves its clock alone takes no time, whatever becomes of the wire. -/
theorem State.mapNodes_laterBy_zero (s : State) (wire : Level) (f : Node → Node)
    (hf : ∀ n, (f n).clock = n.clock) : s.LaterBy 0 ({ s with wire := wire }.mapNodes f) := by
  refine ⟨rfl, ?_⟩
  rw [State.mapNodes_nodes, List.map_map]
  exact List.map_congr_left fun n _ => hf n

/-- An operation of one node that leaves its clock alone takes no time. -/
theorem State.atNode_laterBy_zero (s : State) (k : Nat) (f : Node → Node)
    (hf : ∀ n, (f n).clock = n.clock) : s.LaterBy 0 (s.atNode k f) := by
  obtain ⟨_, _, hframe⟩ := s.atNode_frame k f
  refine ⟨by rw [hframe]; rfl, List.ext_getElem? fun j => ?_⟩
  rw [State.atNode_nodes, List.getElem?_map, List.getElem?_modify, List.getElem?_map]
  cases s.nodes[j]? with
  | none => rfl
  | some n => by_cases hj : k = j <;> simp [hj, hf]

theorem State.laterBy_zero_refl (s : State) : s.LaterBy 0 s := ⟨rfl, rfl⟩

/-- Presenting an operation takes no time. -/
theorem State.present_laterBy_zero (s : State) (p : Arrival → Bool) : s.LaterBy 0 (s.present p) := by
  rcases s.present_cases p with ⟨_, _, _, h⟩ | ⟨_, h⟩ <;> rw [h] <;> exact ⟨rfl, rfl⟩

/-- `tick` lets time pass alike for the scenario and for every node. -/
theorem State.tick_laterBy (d : Nat) (s : State) : s.LaterBy d (s.tick d) := by
  refine ⟨rfl, ?_⟩
  rw [State.tick_nodes, List.map_map]
  exact List.map_congr_left fun _ _ => rfl

/-- Every event but the passing of time happens at one instant. -/
theorem State.event_laterBy_zero (s : State) (ph : Phase) (h : ph ≠ .advance) : s.LaterBy 0 (s.event ph) := by
  cases ph with
  | issue | quiet => exact s.laterBy_zero_refl
  | wire => exact s.mapNodes_laterBy_zero _ _ (Node.onTransition_clock _ _)
  | pending => exact s.mapNodes_laterBy_zero s.wire _ (Node.takePending_clock _ _)
  | change => exact s.mapNodes_laterBy_zero s.wire _ Node.applyChange_clock
  | finish => exact s.mapNodes_laterBy_zero s.wire _ Node.finishTransmission_clock
  | answer => exact s.mapNodes_laterBy_zero s.wire _ Node.takeAnswer_clock
  | timeout => exact s.mapNodes_laterBy_zero s.wire _ Node.timeOut_clock
  | stimulus | command => exact s.present_laterBy_zero _
  | drive =>
    rw [State.event]
    split
    · exact s.present_laterBy_zero _
    · exact s.laterBy_zero_refl
  | yield =>
    rw [State.event]
    split
    · exact s.atNode_laterBy_zero _ _ Node.timeOut_clock
    · exact s.laterBy_zero_refl
  | advance => exact absurd rfl h

/-- Without an operation at the port, some time, perhaps none, passes alike for all. -/
theorem State.event_laterBy (s : State) (ph : Phase) : ∃ d, s.LaterBy d (s.event ph) := by
  by_cases h : ph = .advance
  · subst h
    exact ⟨_, s.tick_laterBy _⟩
  · exact ⟨0, s.event_laterBy_zero ph h⟩

/-- An operation at the port takes no scenario time. -/
theorem step_at_port_now (s t : State) (q : Issue) (hq : s.port = some q) (h : step s = .next t) :
    t.now = s.now := by
  obtain ⟨i, _, rfl⟩ := step_at_port_next s t q hq h
  obtain ⟨_, _, hframe⟩ := s.takePort.atNode_frame q.node (nodeEffect s.par i)
  rw [hframe, State.takePort_now]

/-- An operation at the port keeps every node's clock, except that `INIT` sets its own node's to 0. -/
theorem step_at_port_clock (s t : State) (q : Issue) (hq : s.port = some q) (h : step s = .next t)
    (k : Nat) (n : Node) (hn : s.nodes[k]? = some n) :
    ∃ m, t.nodes[k]? = some m ∧ (m.clock = n.clock ∨
      (m.clock = 0 ∧ q.node = k ∧ ∃ rx tx a role, decode q.code = .ok (.init rx tx a role))) := by
  obtain ⟨i, hd, rfl⟩ := step_at_port_next s t q hq h
  have hn' : s.takePort.nodes[k]? = some n := hn
  rw [State.atNode_nodes, List.getElem?_modify, hn']
  by_cases hk : q.node = k
  · refine ⟨nodeEffect s.par i n, by simp [hk], ?_⟩
    rcases nodeEffect_clock s.par i n with hc | ⟨hc, rx, tx, a, role, rfl⟩
    · exact .inl hc
    · exact .inr ⟨hc, hk, rx, tx, a, role, hd⟩
  · exact ⟨n, by simp [hk], .inl rfl⟩

/-- Settles O47: an event lets the same time pass for all, and an operation lets none pass. -/
theorem timePassesAlikeForEveryNode : Obligations.TimePassesAlikeForEveryNode := by
  intro s t h
  cases hp : s.port with
  | none =>
    rw [step_of_no_port s hp] at h
    cases h
    obtain ⟨d, hlater⟩ := s.event_laterBy s.phase
    have hnow := hlater.1
    refine ⟨by omega, fun k n hn => ?_⟩
    obtain ⟨m, hm, hc⟩ := hlater.clock hn
    exact ⟨m, hm, .inl (by omega)⟩
  | some q =>
    have hnow := step_at_port_now s t q hp h
    refine ⟨hnow.ge, fun k n hn => ?_⟩
    obtain ⟨m, hm, hc | ⟨hc, hk, rx, tx, a, role, hd⟩⟩ := step_at_port_clock s t q hp h k n hn
    · exact ⟨m, hm, .inl (by rw [hc, hnow])⟩
    · exact ⟨m, hm, .inr ⟨hc, hnow, q, rx, tx, a, role, rfl, hk, hd⟩⟩

/-! ### When time may pass -/

/-- A node schedules something when a pin change is to come, a closed transmission runs, or it waits. The end
of a bare symbol is not scheduled (log entries 5 and 26). -/
theorem Node.delays_ne_nil_iff (n : Node) :
    n.delays ≠ [] ↔
      n.sched ≠ [] ∨ (∃ e next, n.act = .transmitting e ∧ n.ending = .close next) ∨ ∃ d, n.act = .waiting d := by
  unfold Node.delays
  cases n.sched with
  | cons c rest => simp
  | nil => cases n.act <;> cases n.ending <;> simp

/-- Something is scheduled when a node or the script has something to come. -/
theorem State.nextDelay_isSome_iff (s : State) :
    s.nextDelay.isSome = true ↔ s.inbox ≠ [] ∨ ∃ n ∈ s.nodes, n.delays ≠ [] := by
  rw [State.nextDelay, List.isSome_min?_iff, Ne, List.append_eq_nil_iff, List.map_eq_nil_iff,
    List.flatMap_eq_nil_iff, not_and_or, or_comm]
  push Not
  rfl

/-- Where nothing of a node is due, all that it has scheduled lies ahead. -/
theorem State.delays_pos (s : State) (hc : s.NoChangeDue) (ht : s.NoTransmissionOver) (hd : s.NoDeadlineReached)
    (n : Node) (hn : n ∈ s.nodes) (e : Nat) (he : e ∈ n.delays) : 0 < e := by
  cases hs : n.sched with
  | cons c rest =>
    have hlt := hc n hn c (by simp [hs])
    simp only [Node.delays, hs, List.mem_singleton] at he
    omega
  | nil =>
    cases ha : n.act with
    | idle => simp [Node.delays, hs, ha] at he
    | waiting deadline =>
      have hlt := hd n hn deadline ha
      simp only [Node.delays, hs, ha, List.mem_singleton] at he
      omega
    | transmitting stop =>
      cases hend : n.ending with
      | hold => simp [Node.delays, hs, ha, hend] at he
      | close next =>
        have hlt := ht n hn stop next ha hend hs
        simp only [Node.delays, hs, ha, hend, List.mem_singleton] at he
        omega

/-- Where nothing is due, the next event lies ahead. -/
theorem State.nextDelay_pos (s : State) (hc : s.NoChangeDue) (ht : s.NoTransmissionOver)
    (hd : s.NoDeadlineReached) (hi : s.NothingPresented) (d : Nat) (h : s.nextDelay = some d) : 0 < d := by
  rcases s.nextDelay_mem d h with ⟨n, hn, hmem⟩ | ⟨a, ha, rfl⟩
  · exact s.delays_pos hc ht hd n hn d hmem
  · have := hi a ha
    omega

/-- Time is let pass when the instant is settled, no wait is over, nothing is presented and something is
scheduled. -/
theorem State.phase_eq_advance_iff (s : State) (hp : s.port = none) :
    s.phase = .advance ↔
      s.Settled ∧ s.NoWaitAnswered ∧ s.NothingPresented ∧ s.NoDeadlineReached ∧ s.nextDelay.isSome = true := by
  by_cases hset : s.Settled
  · rw [s.phase_of_settled hset]
    constructor
    · intro h
      split_ifs at h with hans hdrv hyld htmo hdue hnext
      have hwait : s.NoWaitAnswered := s.noWaitAnswered_iff.mpr (by simpa using hans)
      exact ⟨hset, hwait, s.nothingPresented_iff.mpr (by simpa using hdue),
        (s.noDeadlineReached_iff hwait).mpr (by simpa using htmo), hnext⟩
    · rintro ⟨_, hwait, hnone, hdl, hnext⟩
      obtain ⟨hdrv, hyld⟩ := s.no_driver_of_nothing hnone
      simp [s.noWaitAnswered_iff.mp hwait, hdrv, hyld, (s.noDeadlineReached_iff hwait).mp hdl,
        s.nothingPresented_iff.mp hnone, hnext]
  · refine iff_of_false (fun h => ?_) fun h => hset h.1
    rcases s.phase_of_unsettled hp hset with
      ⟨_, he⟩ | ⟨_, _, he⟩ | ⟨_, _, he⟩ | ⟨_, _, _, he⟩ | ⟨_, _, _, _, he⟩ <;> rw [he] at h <;> cases h

/-- The scenario's time runs on in an event exactly when the event is the passing of a time above 0. -/
theorem State.now_lt_event_iff (s : State) :
    s.now < (s.event s.phase).now ↔ s.phase = .advance ∧ 0 < s.nextDelay.getD 0 := by
  by_cases h : s.phase = .advance
  · rw [h, State.event, State.advance, State.tick_now]
    simp
  · have := (s.event_laterBy_zero _ h).1
    simp [h, this]

/-- Settles O48: the conditions are those under which the next event is the passing of time, and then the next
delay is above 0. -/
theorem timePassesOnlyWhenNothingIsDue : Obligations.TimePassesOnlyWhenNothingIsDue := by
  intro s t h
  simp only [← Node.delays_ne_nil_iff, ← State.nextDelay_isSome_iff]
  cases hp : s.port with
  | some q =>
    have hnow := step_at_port_now s t q hp h
    exact iff_of_false (by omega) fun ⟨⟨hport, _⟩, _⟩ => by rw [hport] at hp; cases hp
  | none =>
    rw [step_of_no_port s hp] at h
    cases h
    rw [s.now_lt_event_iff, s.phase_eq_advance_iff hp]
    constructor
    · rintro ⟨⟨⟨hshown, hchange, _, hover⟩, hwait, hnone, hdl, hnext⟩, _⟩
      exact ⟨hshown, hchange, hnone, hover, hwait, hdl, hnext⟩
    · rintro ⟨hshown, hchange, hnone, hover, hwait, hdl, hnext⟩
      refine ⟨⟨⟨hshown, hchange, fun a ha _ => hnone a ha, hover⟩, hwait, hnone, hdl, hnext⟩, ?_⟩
      obtain ⟨d, hd⟩ := Option.isSome_iff_exists.mp hnext
      rw [hd]
      exact s.nextDelay_pos hchange hover hdl hnone d hd

end Sys2Proof.Machine
end

section
/-! SUPPORT. What one step makes of each node and what it leaves of it; then the statements on the invariant and
on who may write a field (spec/10_state.md R21 to R42, spec/40_frame_decoder.md R119, spec/60_exceptions.md R206 to
R213). -/

namespace Sys2Proof.Machine

open Sys2Proof

/-! ### One step, seen from one node -/

/-- What an event other than the running of an operation can make of a node (`State.event_nodes` ties it to
`State.event`). -/
inductive NodeEvent (par : Config) (n : Node) : Node → Prop where
  | untouched : NodeEvent par n n
  | transition (level : Level) : NodeEvent par n (n.onTransition par level)
  | pending (level : Level) : NodeEvent par n (n.takePending par level)
  | change : NodeEvent par n n.applyChange
  | finish : NodeEvent par n n.finishTransmission
  | answer : NodeEvent par n n.takeAnswer
  | timeOut : NodeEvent par n n.timeOut
  | pass (d : Nat) (hd : ∀ e ∈ n.delays, d ≤ e) : NodeEvent par n (n.tick d)

/-- Elements are related to those of a list with one entry changed, when the change is in the relation. -/
theorem forall₂_modify_self {α : Type} {R : α → α → Prop} {f : α → α} (hrefl : ∀ a, R a a)
    (hf : ∀ a, R a (f a)) (l : List α) (k : Nat) : List.Forall₂ R l (l.modify k f) := by
  refine List.forall₂_iff_get.mpr ⟨(List.length_modify ..).symm, fun i hi hi' => ?_⟩
  simp only [List.get_eq_getElem, List.getElem_modify]
  split
  · exact hf _
  · exact hrefl _

theorem State.present_nodes (p : Arrival → Bool) (s : State) : (s.present p).nodes = s.nodes := by
  rcases s.present_cases p with ⟨_, _, _, h⟩ | ⟨_, h⟩ <;> rw [h]
  rfl

/-- An event makes of each node what one of the node's own events makes of it. -/
theorem State.event_nodes (s : State) (ph : Phase) :
    List.Forall₂ (NodeEvent s.par) s.nodes (s.event ph).nodes := by
  have same : List.Forall₂ (NodeEvent s.par) s.nodes s.nodes :=
    List.forall₂_same.mpr fun _ _ => .untouched
  have mapped (wire : Level) (f : Node → Node) (h : ∀ n ∈ s.nodes, NodeEvent s.par n (f n)) :
      List.Forall₂ (NodeEvent s.par) s.nodes ({ s with wire := wire }.mapNodes f).nodes :=
    List.forall₂_map_right_iff.mpr (List.forall₂_same.mpr h)
  have presented : ∀ p, List.Forall₂ (NodeEvent s.par) s.nodes (s.present p).nodes := by
    intro p
    rw [s.present_nodes]
    exact same
  cases ph with
  | issue | quiet => exact same
  | wire => exact mapped _ _ fun _ _ => .transition _
  | pending => exact mapped s.wire _ fun _ _ => .pending _
  | change => exact mapped s.wire _ fun _ _ => .change
  | finish => exact mapped s.wire _ fun _ _ => .finish
  | answer => exact mapped s.wire _ fun _ _ => .answer
  | timeout => exact mapped s.wire _ fun _ _ => .timeOut
  | stimulus | command => exact presented _
  | drive =>
    rw [State.event]
    split
    · exact presented _
    · exact same
  | yield =>
    rw [State.event]
    split
    · rw [State.atNode_nodes]
      exact forall₂_modify_self (fun _ => .untouched) (fun _ => .timeOut) _ _
    · exact same
  | advance =>
    refine mapped s.wire (Node.tick _) fun n hn => .pass _ fun e he => ?_
    cases hd : s.nextDelay with
    | none => exact Nat.zero_le e
    | some d => exact (s.nextDelay_le d hd).1 n hn e he

/-- An event leaves the parameters alone. -/
theorem State.event_par (s : State) (ph : Phase) : (s.event ph).par = s.par := by
  rcases s.event_cases ph with ⟨f, wire, h⟩ | ⟨p, h⟩ | ⟨k, h⟩ | ⟨d, h⟩ <;> rw [h]
  · rfl
  · rcases s.present_cases p with ⟨_, _, _, hp⟩ | ⟨_, hp⟩ <;> rw [hp]
  · obtain ⟨_, _, hf⟩ := s.atNode_frame k Node.timeOut
    rw [hf]
  · rfl

/-- An operation that is not refused has changed its node by its effect. -/
theorem exec_eq_of_next {i : Instr} {s t : State} (h : exec i s = .next t) :
    t = s.onSelf (nodeEffect s.par i) := by
  rcases exec_cases i s with he | ⟨_, he⟩ <;> rw [he] at h <;> cases h
  rfl

/-- An operation that is not refused at a node is not refused at it in another state either. -/
theorem exec_next_of_same_node {i : Instr} {s s' t : State} (hpar : s'.par = s.par) (hself : s'.self = s.self)
    (h : exec i s = .next t) : exec i s' = .next (s'.onSelf (nodeEffect s'.par i)) := by
  rcases exec_local i s s' hpar hself with ⟨_, t', _, h', _⟩ | ⟨_, hr, _⟩
  · rw [h', exec_eq_of_next h']
  · rw [hr] at h; cases h

/-- What a step makes of node `k`: one of the node's own events, or the effect of the operation at the port,
which is for this node and is not refused. -/
theorem step_node {s t : State} (h : step s = .next t) {k : Nat} {n m : Node}
    (hn : s.nodes[k]? = some n) (hm : t.nodes[k]? = some m) :
    NodeEvent s.par n m ∨
      ∃ q i, s.port = some q ∧ q.node = k ∧ decode q.code = .ok i ∧ m = nodeEffect s.par i n ∧
        exec i { s with self := n } = .next { s with self := m } := by
  rcases step_cases s t h with ⟨_, rfl⟩ | ⟨q, i, f, u, hq, hd, hf, hx, rfl⟩
  · obtain ⟨hk, rfl⟩ := List.getElem?_eq_some_iff.mp hn
    obtain ⟨hk', rfl⟩ := List.getElem?_eq_some_iff.mp hm
    exact .inl ((List.forall₂_iff_get.mp (s.event_nodes s.phase)).2 k hk hk')
  · obtain ⟨hself, hpar, hback⟩ := s.takePort.focus_eq_some q.node f hf
    rw [exec_eq_of_next hx, hback, State.atNode_nodes, List.getElem?_modify] at hm
    have hn' : s.takePort.nodes[k]? = some n := hn
    rw [hn'] at hm
    by_cases hk : q.node = k
    · subst hk
      cases hself.symm.trans hn'
      simp only [if_true, Option.map_eq_map, Option.map_some, Option.some.injEq] at hm
      rw [hpar, State.takePort_par] at hm
      subst hm
      exact .inr ⟨q, i, hq, rfl, hd, rfl, exec_next_of_same_node (hpar.symm) rfl hx⟩
    · simp only [if_neg hk, Option.map_eq_map, Option.map_some, Option.some.injEq] at hm
      subst hm
      exact .inl .untouched

/-- Settles O46: neither an event nor an operation of one node writes the parameters or adds a node. -/
theorem parametersAndNodesStay : Obligations.ParametersAndNodesStay := by
  intro s t h
  cases hp : s.port with
  | none =>
    rw [step_of_no_port s hp] at h
    cases h
    exact ⟨s.event_par _, (s.event_nodes _).length_eq.symm⟩
  | some q =>
    obtain ⟨i, _, rfl⟩ := step_at_port_next s t q hp h
    obtain ⟨_, _, hframe⟩ := s.takePort.atNode_frame q.node (nodeEffect s.par i)
    refine ⟨by rw [hframe, State.takePort_par], ?_⟩
    rw [State.atNode_nodes, List.length_modify]
    rfl

/-! ### Good order -/

/-- An event keeps a node in good order. -/
theorem NodeEvent.inv {par : Config} {n m : Node} (he : NodeEvent par n m) (hw : par.wf = true)
    (h : n.Inv par) : m.Inv par := by
  cases he with
  | untouched => exact h
  | transition level => exact n.onTransition_inv par hw level h
  | pending level => exact n.takePending_inv par hw level h
  | change => exact n.applyChange_inv par h
  | finish => exact n.finishTransmission_inv par h
  | answer => exact n.takeAnswer_inv par h
  | timeOut => exact n.timeOut_inv par h
  | pass d hd => exact n.tick_inv par d h hd

/-- Settles O53: each node of the new state comes from the node with its number, by one of the node's events
or by the operation at the port, and both keep good order. -/
theorem everyStepKeepsGoodOrder : Obligations.EveryStepKeepsGoodOrder := by
  rintro s t ⟨hw, hnodes⟩ h
  obtain ⟨hpar, hlen⟩ := parametersAndNodesStay s t h
  rw [State.Inv, hpar]
  refine ⟨hw, fun m hm => ?_⟩
  obtain ⟨k, hk⟩ := List.mem_iff_getElem?.mp hm
  have hlt : k < s.nodes.length := hlen ▸ (List.getElem?_eq_some_iff.mp hk).1
  have hn : s.nodes[k]? = some s.nodes[k] := List.getElem?_eq_getElem hlt
  have hinv := hnodes _ (List.getElem_mem hlt)
  rcases step_node h hn hk with hev | ⟨_, i, _, _, _, _, hx⟩
  · exact hev.inv hw hinv
  · exact exec_inv i { s with self := s.nodes[k] } _ hw hinv hx

/-- The constants the spec states are as the spec asks, whatever the receive polarity. -/
theorem standard_wf (rxInvert : Level) : (Config.standard rxInvert).wf = true := by
  simp [Config.standard, Config.wf]

/-- A node at power-on is in good order. -/
theorem Node.powerOn_inv (par : Config) (hw : par.wf = true) : Node.powerOn.Inv par := by
  refine ⟨⟨Nat.le_refl _, frameW_pos par hw _, Nat.zero_le _, fun _ => rfl, by decide⟩, ?_,
    ⟨fun _ => ⟨rfl, rfl⟩, fun h => (by cases h), fun _ => rfl⟩, ?_⟩
  · simp [Node.PayloadInv, Node.powerOn]
  · simp [Node.TimelineInv, Node.powerOn]

/-- Settles O52: the one node is at power-on, and the constants are the stated ones. -/
theorem powerOnIsInGoodOrder : Obligations.PowerOnIsInGoodOrder := by
  have hw := standard_wf Config.openRxInvert
  refine ⟨hw, fun n hn => ?_⟩
  rw [List.mem_singleton.mp hn]
  exact Node.powerOn_inv _ hw

/-! ### What an edge leaves of the node -/

/-- What no outcome of a transition touches: the configuration, `outgoing`, the clock and the result. -/
structure Node.KeepsFrame (n m : Node) : Prop where
  cfg : m.cfg = n.cfg
  cfgSet : m.cfgSet = n.cfgSet
  outgoing : m.pay.outgoing = n.pay.outgoing
  clock : m.clock = n.clock
  result : m.result = n.result

theorem Node.keepsFrame_refl (n : Node) : n.KeepsFrame n := ⟨rfl, rfl, rfl, rfl, rfl⟩

theorem Node.drive_keepsFrame (n : Node) (segs : List Seg) (e : Ending) : n.KeepsFrame (n.drive segs e) := by
  obtain ⟨_, _, _, _, h⟩ := n.drive_cases segs e
  rw [h]
  exact ⟨rfl, rfl, rfl, rfl, rfl⟩

theorem Node.transmit_keepsFrame (n : Node) (segs : List Seg) (next : Activity) :
    n.KeepsFrame (n.transmit segs next) := by
  obtain ⟨_, _, _, _, _, _, h⟩ := n.transmit_frame segs next
  rw [h]
  exact ⟨rfl, rfl, rfl, rfl, rfl⟩

theorem Node.onMatch_keepsFrame (par : Config) (n : Node) : n.KeepsFrame (n.onMatch par) := by
  obtain ⟨hcfg, hset, hout, hclock, hresult⟩ := n.frameDone.transmit_keepsFrame
    (waveform par (truncTo par.dataW n.pay.outgoing) par.dataW) n.act
  exact ⟨hcfg, hset, hout, hclock, hresult⟩

/-- No outcome of a decoder step touches the frame; R40, R119. -/
theorem Node.edge_keepsFrame (par : Config) (level : Level) (n : Node) : n.KeepsFrame (n.edge par level) := by
  unfold Node.edge
  cases n.edgeLabel par level with
  | matched => exact n.onMatch_keepsFrame par
  | glitch | sync | skip | bit | missed | captured => exact ⟨rfl, rfl, rfl, rfl, rfl⟩

theorem Node.maskEdge_keepsFrame (par : Config) (n : Node) : n.KeepsFrame (n.maskEdge par) := by
  rcases n.maskEdge_cases par with ⟨_, h⟩ | ⟨_, h⟩ <;> rw [h] <;> exact ⟨rfl, rfl, rfl, rfl, rfl⟩

theorem Node.onTransition_keepsFrame (par : Config) (level : Level) (n : Node) :
    n.KeepsFrame (n.onTransition par level) := by
  unfold Node.onTransition
  rcases n.takeInterrupt_cases par (Node.edge par level) with ⟨_, h⟩ | ⟨_, _, h⟩ | ⟨_, _, h⟩ <;> rw [h]
  · exact n.edge_keepsFrame par level
  · exact n.maskEdge_keepsFrame par
  · exact n.keepsFrame_refl

theorem Node.takePending_keepsFrame (par : Config) (level : Level) (n : Node) :
    n.KeepsFrame (n.takePending par level) := by
  rcases n.takePending_cases par level with ⟨_, h⟩ | ⟨_, h⟩ <;> rw [h]
  · obtain ⟨hcfg, hset, hout, hclock, hresult⟩ := n.clearPending.edge_keepsFrame par level
    exact ⟨hcfg, hset, hout, hclock, hresult⟩
  · exact n.keepsFrame_refl

/-- Settles O37: `EDGE` is never refused, and a transition keeps the frame. -/
theorem edgeCompletesAndKeepsItsFrame : Obligations.EdgeCompletesAndKeepsItsFrame := by
  intro s level
  obtain ⟨hcfg, hset, hout, hclock, hresult⟩ := s.self.onTransition_keepsFrame s.par level
  exact ⟨_, rfl, hcfg, hset, hout, hclock, hresult⟩

@[simp] theorem Node.transmit_dec (n : Node) (segs : List Seg) (next : Activity) :
    (n.transmit segs next).dec = n.dec := by
  obtain ⟨_, _, _, _, _, _, h⟩ := n.transmit_frame segs next
  rw [h]

@[simp] theorem Node.onMatch_dec (par : Config) (n : Node) : (n.onMatch par).dec = n.frameDone.dec :=
  n.frameDone.transmit_dec _ _

@[simp] theorem Node.maskEdge_dec (par : Config) (n : Node) : (n.maskEdge par).dec = n.dec := by
  rcases n.maskEdge_cases par with ⟨_, h⟩ | ⟨_, h⟩ <;> rw [h]

/-- A decoder step that is no frame timeout lowers the count to discard only by discarding: every other
outcome keeps the count, or finds it at 0. -/
theorem Node.edge_ignoreRemaining_lt (par : Config) (level : Level) (n : Node) (hd : n.delta ≤ par.frameT)
    (h : (n.edge par level).dec.ignoreRemaining < n.dec.ignoreRemaining) : n.edge par level = n.onSkip := by
  rcases n.edge_cases par level with ⟨_, he⟩ | ⟨_, hsync, _⟩ | ⟨_, _, _, he⟩ | ⟨_, _, hzero, _⟩
  · rw [he] at h; exact absurd h (Nat.lt_irrefl _)
  · omega
  · exact he
  · omega

/-- Settles O35: an edge under which the count falls is discarded (`Node.onSkip`), and that writes neither the
bit count nor the shift register. -/
theorem edgeDecrementsOrContributesNeverBoth : Obligations.EdgeDecrementsOrContributesNeverBoth := by
  intro s t level hx hd hlt
  cases hx
  simp only [State.onSelf_self, Node.onTransition] at hlt ⊢
  rcases s.self.takeInterrupt_cases s.par (Node.edge s.par level) with ⟨_, h⟩ | ⟨_, _, h⟩ | ⟨_, _, h⟩ <;>
    rw [h] at hlt ⊢
  · rw [s.self.edge_ignoreRemaining_lt s.par level hd hlt]
    exact ⟨rfl, rfl⟩
  · rw [Node.maskEdge_dec]
    exact ⟨rfl, rfl⟩
  · exact ⟨rfl, rfl⟩

/-! ### Who writes the configuration and `outgoing` -/

/-- An event writes neither the configuration nor `outgoing`. -/
theorem NodeEvent.cfg_outgoing {par : Config} {n m : Node} (he : NodeEvent par n m) :
    m.cfg = n.cfg ∧ m.pay.outgoing = n.pay.outgoing := by
  cases he with
  | untouched | pass d hd => exact ⟨rfl, rfl⟩
  | transition level =>
    have hk := n.onTransition_keepsFrame par level
    exact ⟨hk.cfg, hk.outgoing⟩
  | pending level =>
    have hk := n.takePending_keepsFrame par level
    exact ⟨hk.cfg, hk.outgoing⟩
  | change => rcases n.applyChange_cases with ⟨_, _, _, _, h⟩ | ⟨_, h⟩ <;> rw [h] <;> exact ⟨rfl, rfl⟩
  | finish =>
    rcases n.finishTransmission_cases with ⟨_, _, _, _, _, _, h⟩ | ⟨_, h⟩ <;> rw [h] <;> exact ⟨rfl, rfl⟩
  | answer => rcases n.takeAnswer_cases with ⟨_, h⟩ | ⟨_, h⟩ <;> rw [h] <;> exact ⟨rfl, rfl⟩
  | timeOut => rcases n.timeOut_cases with ⟨_, h⟩ | ⟨_, h⟩ <;> rw [h] <;> exact ⟨rfl, rfl⟩

/-- No operation but `INIT` writes the configuration, and none but `INIT` and `SETP` writes `outgoing`. -/
theorem nodeEffect_cfg_outgoing (par : Config) (i : Instr) (n : Node) :
    (∃ rx tx a role, i = .init rx tx a role) ∨
      (nodeEffect par i n).cfg = n.cfg ∧
        ((∃ v, i = .setp v) ∨ (nodeEffect par i n).pay.outgoing = n.pay.outgoing) := by
  cases i with
  | init rx tx a role => exact .inl ⟨rx, tx, a, role, rfl⟩
  | setp v => exact .inr ⟨rfl, .inl ⟨v, rfl⟩⟩
  | edge level =>
    have hk := n.onTransition_keepsFrame par level
    exact .inr ⟨hk.cfg, .inr hk.outgoing⟩
  | bit1 | bit0 | wake | addr a | data d =>
    have hk := fun segs => n.drive_keepsFrame segs .hold
    exact .inr ⟨(hk _).cfg, .inr (hk _).outgoing⟩
  | release => exact .inr ⟨rfl, .inr rfl⟩
  | req target =>
    have hk := Node.transmit_keepsFrame { n with result := none } (requestSegs par target)
      (.waiting (n.clock + duration (requestSegs par target) + par.reqTimeout))
    exact .inr ⟨hk.cfg, .inr hk.outgoing⟩
  | xmit value width =>
    have hk := n.transmit_keepsFrame (waveform par value width) .idle
    exact .inr ⟨hk.cfg, .inr hk.outgoing⟩

/-- Settles O49: no event writes the configuration, and of the operations only `INIT` does. -/
theorem onlyInitWritesTheConfiguration : Obligations.OnlyInitWritesTheConfiguration := by
  intro s t k n m h hn hm hne
  rcases step_node h hn hm with hev | ⟨q, i, hq, hk, hd, rfl, _⟩
  · exact absurd hev.cfg_outgoing.1 hne
  · rcases nodeEffect_cfg_outgoing s.par i n with ⟨rx, tx, a, role, rfl⟩ | ⟨hcfg, _⟩
    · exact ⟨q, rx, tx, a, role, hq, hk, hd⟩
    · exact absurd hcfg hne

/-- Settles O50: no event writes `outgoing`, and of the operations only `SETP` and `INIT` do. -/
theorem onlySetpAndInitWriteOutgoing : Obligations.OnlySetpAndInitWriteOutgoing := by
  intro s t k n m h hn hm hne
  rcases step_node h hn hm with hev | ⟨q, i, hq, hk, hd, rfl, _⟩
  · exact absurd hev.cfg_outgoing.2 hne
  · rcases nodeEffect_cfg_outgoing s.par i n with hinit | ⟨_, hsetp | hout⟩
    · exact ⟨q, i, hq, hk, hd, .inr hinit⟩
    · exact ⟨q, i, hq, hk, hd, .inl hsetp⟩
    · exact absurd hout hne

/-! ### Who writes `receivedFlag` -/

/-- A controller whose handler can run completes its frame, and `m` is what it becomes: the flag is set and
the bit count starts again; R35, R135. -/
structure Node.Captures (par : Config) (n m : Node) : Prop where
  enabled : n.Enabled
  controller : n.cfg.role = .controller
  complete : n.dec.bitsAccumulated + 1 = par.dataW
  restarted : m.dec.bitsAccumulated = 0
  flag : m.pay.receivedFlag = true

@[simp] theorem Node.drive_pay (n : Node) (segs : List Seg) (e : Ending) : (n.drive segs e).pay = n.pay := by
  obtain ⟨_, _, _, _, h⟩ := n.drive_cases segs e
  rw [h]

@[simp] theorem Node.transmit_pay (n : Node) (segs : List Seg) (next : Activity) :
    (n.transmit segs next).pay = n.pay := by
  obtain ⟨_, _, _, _, _, _, h⟩ := n.transmit_frame segs next
  rw [h]

@[simp] theorem Node.maskEdge_pay (par : Config) (n : Node) : (n.maskEdge par).pay = n.pay := by
  rcases n.maskEdge_cases par with ⟨_, h⟩ | ⟨_, h⟩ <;> rw [h]

/-- Of the outcomes of a decoder step, only the completed frame of a controller writes the payload
registers. -/
theorem Node.edge_pay (par : Config) (level : Level) (n : Node) (hen : n.Enabled) :
    (n.edge par level).pay = n.pay ∨ n.Captures par (n.edge par level) := by
  rcases n.edge_cases par level with ⟨_, he⟩ | ⟨_, _, he⟩ | ⟨_, _, _, he⟩ |
      ⟨_, _, _, ⟨_, he⟩ | ⟨_, _, _, he⟩ | ⟨_, _, _, he⟩ | ⟨hrole, hbits, he⟩⟩ <;> rw [he]
  · exact .inl rfl
  · exact .inl rfl
  · exact .inl rfl
  · exact .inl rfl
  · exact .inl (n.frameDone.transmit_pay _ _)
  · exact .inl rfl
  · exact .inr ⟨hen, hrole, hbits, rfl, rfl⟩

theorem Node.onTransition_pay (par : Config) (level : Level) (n : Node) :
    (n.onTransition par level).pay = n.pay ∨ n.Captures par (n.onTransition par level) := by
  unfold Node.onTransition
  rcases n.takeInterrupt_cases par (Node.edge par level) with ⟨ht, h⟩ | ⟨_, _, h⟩ | ⟨_, _, h⟩ <;> rw [h]
  · obtain ⟨hset, hie, htr, _⟩ := n.takesEdge_iff.mp ht
    exact n.edge_pay par level ⟨hset, hie, htr⟩
  · exact .inl (n.maskEdge_pay par)
  · exact .inl rfl

/-- A latched edge is taken when it is there and the handler can run. -/
theorem Node.pendingReady_iff (n : Node) : n.pendingReady = true ↔ n.pend = true ∧ n.Enabled := by
  rw [Node.pendingReady, Bool.and_eq_true, n.canHandle_iff]

theorem Node.takePending_pay (par : Config) (level : Level) (n : Node) :
    (n.takePending par level).pay = n.pay ∨ n.Captures par (n.takePending par level) := by
  rcases n.takePending_cases par level with ⟨hr, h⟩ | ⟨_, h⟩ <;> rw [h]
  · obtain ⟨_, hen⟩ := n.pendingReady_iff.mp hr
    refine (n.clearPending.edge_pay par level hen).imp_right fun hc => ?_
    exact ⟨hen, hc.controller, hc.complete, hc.restarted, hc.flag⟩
  · exact .inl rfl

/-- An event writes `receivedFlag` only by a capture, which sets it, or by the end of an answered wait, which
clears it and returns `incoming`. -/
theorem NodeEvent.receivedFlag {par : Config} {n m : Node} (he : NodeEvent par n m) :
    m.pay.receivedFlag = n.pay.receivedFlag ∨ n.Captures par m ∨
      (m.pay.receivedFlag = false ∧ (∃ deadline, n.act = .waiting deadline) ∧ m.act = .idle ∧
        m.result = some n.pay.incoming) := by
  cases he with
  | untouched | pass d hd => exact .inl rfl
  | transition level =>
    exact (n.onTransition_pay par level).imp (congrArg PayloadRegisters.receivedFlag) Or.inl
  | pending level =>
    exact (n.takePending_pay par level).imp (congrArg PayloadRegisters.receivedFlag) Or.inl
  | change => rcases n.applyChange_cases with ⟨_, _, _, _, h⟩ | ⟨_, h⟩ <;> rw [h] <;> exact .inl rfl
  | finish =>
    rcases n.finishTransmission_cases with ⟨_, _, _, _, _, _, h⟩ | ⟨_, h⟩ <;> rw [h] <;> exact .inl rfl
  | answer =>
    rcases n.takeAnswer_cases with ⟨ha, h⟩ | ⟨_, h⟩ <;> rw [h]
    · exact .inr (.inr ⟨rfl, (n.answered_iff.mp ha).2, rfl, rfl⟩)
    · exact .inl rfl
  | timeOut => rcases n.timeOut_cases with ⟨_, h⟩ | ⟨_, h⟩ <;> rw [h] <;> exact .inl rfl

/-- An operation writes `receivedFlag` only as an edge that captures, which sets it, or as `INIT`, which clears
it. -/
theorem nodeEffect_receivedFlag (par : Config) (i : Instr) (n : Node) :
    (nodeEffect par i n).pay.receivedFlag = n.pay.receivedFlag ∨ n.Captures par (nodeEffect par i n) ∨
      ((nodeEffect par i n).pay.receivedFlag = false ∧ ∃ rx tx a role, i = .init rx tx a role) := by
  have keep {p : PayloadRegisters} (h : p = n.pay) : p.receivedFlag = n.pay.receivedFlag := by rw [h]
  cases i with
  | init rx tx a role => exact .inr (.inr ⟨rfl, rx, tx, a, role, rfl⟩)
  | edge level => exact (n.onTransition_pay par level).imp keep Or.inl
  | bit1 | bit0 | wake | addr a | data d => exact .inl (keep (n.drive_pay _ _))
  | req target => exact .inl (keep (Node.transmit_pay _ _ _))
  | xmit value width => exact .inl (keep (n.transmit_pay _ _))
  | release | setp value => exact .inl rfl

/-- Settles O51: of the ways a step can write the flag, only a capture sets it, and only an answered wait and
`INIT` clear it. -/
theorem receivedFlagIsSetByTheDecoderAndClearedByTheConsumer :
    Obligations.ReceivedFlagIsSetByTheDecoderAndClearedByTheConsumer := by
  intro s t k n m h hn hm
  have captured (hc : n.Captures s.par m) : n.Enabled ∧ n.cfg.role = .controller ∧
      n.dec.bitsAccumulated + 1 = s.par.dataW ∧ m.dec.bitsAccumulated = 0 :=
    ⟨hc.enabled, hc.controller, hc.complete, hc.restarted⟩
  have hwrites : m.pay.receivedFlag = n.pay.receivedFlag ∨ n.Captures s.par m ∨
      (m.pay.receivedFlag = false ∧
        (((∃ deadline, n.act = .waiting deadline) ∧ m.act = .idle ∧ m.result = some n.pay.incoming) ∨
          ∃ q rx tx a role, s.port = some q ∧ q.node = k ∧ decode q.code = .ok (.init rx tx a role))) := by
    rcases step_node h hn hm with hev | ⟨q, i, hq, hk, hd, rfl, _⟩
    · exact hev.receivedFlag.imp_right (Or.imp_right (And.imp_right Or.inl))
    · refine (nodeEffect_receivedFlag s.par i n).imp_right (Or.imp_right (And.imp_right ?_))
      rintro ⟨rx, tx, a, role, rfl⟩
      exact .inr ⟨q, rx, tx, a, role, hq, hk, hd⟩
  rcases hwrites with hsame | hc | ⟨hclear, hwho⟩
  · rw [hsame]
    exact ⟨fun h0 h1 => absurd (h0.symm.trans h1) Bool.false_ne_true,
      fun h1 h0 => absurd (h0.symm.trans h1) Bool.false_ne_true⟩
  · exact ⟨fun _ _ => captured hc, fun _ h0 => (by rw [hc.flag] at h0; cases h0)⟩
  · exact ⟨fun _ h1 => (by rw [hclear] at h1; cases h1), fun _ _ => hwho⟩

/-! ### Latched edges -/

/-- Once the wire has been shown, an edge that can be taken is the next event. -/
theorem State.phase_of_pending (s : State) (hp : s.port = none) (hw : s.wire = s.busLevel)
    (hr : s.nodes.any Node.pendingReady = true) : s.phase = .pending := by
  simp [State.phase, hp, ← hw, hr]

/-- Settles O58: the next event is the delivery, which does at each node what `Node.takePending` does. -/
theorem latchedEdgeIsTakenWithThePresentLevel : Obligations.LatchedEdgeIsTakenWithThePresentLevel := by
  rintro s hp hw ⟨n, hn, hpend, hen⟩
  have hr : s.nodes.any Node.pendingReady = true :=
    List.any_eq_true.mpr ⟨n, hn, n.pendingReady_iff.mpr ⟨hpend, hen⟩⟩
  refine ⟨s.deliverPending, ?_, rfl, rfl, rfl, rfl, hp, fun k n hk => ?_⟩
  · rw [step_of_no_port s hp, s.phase_of_pending hp hw hr, State.event]
  · rw [State.deliverPending, State.mapNodes_nodes, List.getElem?_map, hk, Option.map_some]
    rcases n.takePending_cases s.par (rxLevel s.par s.wire) with ⟨hready, h⟩ | ⟨hready, h⟩
    · rw [h, if_pos (n.pendingReady_iff.mp hready)]
      rfl
    · rw [h, if_neg fun hc => Bool.false_ne_true (hready.symm.trans (n.pendingReady_iff.mpr hc))]

/-! ### Refusals, and edges that no decoder takes -/

/-- Settles O16: none of the stated nodes is at a symbol boundary. -/
theorem symbolsAreRefusedWhereNoneMayBegin : Obligations.SymbolsAreRefusedWhereNoneMayBegin := by
  intro s i hi hbusy
  have hoff : ¬ s.self.symbolBoundary = true := by
    rw [s.self.symbolBoundary_iff]
    rcases hbusy with ⟨d, hd⟩ | ⟨t, ht, hwhy⟩
    · simp [hd]
    · rintro (hidle | ⟨t', ht', hend, hsched, hle⟩)
      · rw [hidle] at ht; cases ht
      · cases ht.symm.trans ht'
        rcases hwhy with h | h | h
        · exact h hend
        · exact h hsched
        · omega
  have refused (f : Node → Node) : s.symbolOp f = .refused .busy :=
    ((s.symbolOp_cases f).resolve_left fun h => hoff h.1).2
  rcases hi with rfl | rfl | rfl | rfl | ⟨a, rfl⟩ | ⟨d, rfl⟩ <;> exact refused _

/-- Settles O17: the four operations are host operations, which need an idle node. -/
theorem hostOperationsAreRefusedUnlessIdle : Obligations.HostOperationsAreRefusedUnlessIdle := by
  intro s i hi hbusy
  have refused (f : Node → Node) : s.hostOp f = .refused .busy :=
    ((s.hostOp_cases f).resolve_left fun h => hbusy h.1).2
  rcases hi with ⟨rx, tx, a, role, rfl⟩ | ⟨v, rfl⟩ | ⟨g, rfl⟩ | ⟨v, w, rfl⟩ <;> exact refused _

/-- What a transition of the receive pin makes of the node is what `EDGE` does. -/
theorem exec_edge_eq {s : State} {level : Level} {m : Node} (h : s.self.onTransition s.par level = m) :
    exec (.edge level) s = .next { s with self := m } := by
  subst h
  rfl

theorem Node.onTransition_of_takes {par : Config} {level : Level} {n : Node} (h : n.takesEdge = true) :
    n.onTransition par level = n.edge par level := if_pos h

theorem Node.maskEdge_of_drop {par : Config} {n : Node} (h : par.maskedEdges = .drop) :
    n.maskEdge par = n := by
  simp [Node.maskEdge, h]

theorem Node.maskEdge_of_latchOne {par : Config} {n : Node} (h : par.maskedEdges = .latchOne) :
    n.maskEdge par = { n with pend := true } := by
  simp [Node.maskEdge, h]

/-- A masked transition is never taken, so it is lost or latched. -/
theorem Node.onTransition_of_masks {par : Config} {level : Level} {n : Node} (h : n.masksEdge = true) :
    n.onTransition par level = n.maskEdge par := by
  have htakes : ¬ n.takesEdge = true := by
    rw [n.takesEdge_iff]
    rintro ⟨_, hie, _, hend⟩
    rcases (n.masksEdge_iff.mp h).2 with h' | h'
    · rw [hie] at h'; cases h'
    · rw [hend] at h'; cases h'
  rw [Node.onTransition, Node.takeInterrupt, if_neg htakes, if_pos h]

/-- A transition that is neither taken nor masked is not seen. -/
theorem Node.onTransition_of_unseen {par : Config} {level : Level} {n : Node} (ht : ¬ n.takesEdge = true)
    (hm : ¬ n.masksEdge = true) : n.onTransition par level = n := by
  rw [Node.onTransition, Node.takeInterrupt, if_neg ht, if_neg hm]

/-- The masked interval has passed when the node's clock has. -/
theorem Node.atMaskedEnd_eq_false_iff (n : Node) :
    n.atMaskedEnd = false ↔ ∀ t, n.maskedThrough = some t → t < n.clock := by
  rw [← Bool.not_eq_true, n.atMaskedEnd_iff]
  push Not
  rfl

/-- A node that has left its masked interval with interrupts enabled masks nothing. -/
theorem Node.not_masksEdge {n : Node} (hie : n.ie = true) (hend : n.atMaskedEnd = false) :
    ¬ n.masksEdge = true := by
  simp [n.masksEdge_iff, hie, hend]

/-- Settles O26: an unbound node and one that drives a bare symbol neither take nor mask a transition; in the
masked interval it is masked, and otherwise it is taken. -/
theorem untakenEdgesAreLostOrLatched : Obligations.UntakenEdgesAreLostOrLatched := by
  intro s level
  refine ⟨fun hset => ?_, fun hset hmasked => ?_, fun _ hie hpast htr => ?_, fun hset hie hpast hfree => ?_⟩
  · exact exec_edge_eq (Node.onTransition_of_unseen (by simp [s.self.takesEdge_iff, hset])
      (by simp [s.self.masksEdge_iff, hset]))
  · rw [← s.self.atMaskedEnd_iff] at hmasked
    have hmask := Node.onTransition_of_masks (par := s.par) (level := level)
      (s.self.masksEdge_iff.mpr ⟨hset, hmasked⟩)
    exact ⟨fun hp => exec_edge_eq (hmask.trans (Node.maskEdge_of_drop hp)),
      fun hp => exec_edge_eq (hmask.trans (Node.maskEdge_of_latchOne hp))⟩
  · have hend := s.self.atMaskedEnd_eq_false_iff.mpr hpast
    refine exec_edge_eq (Node.onTransition_of_unseen ?_ (Node.not_masksEdge hie hend))
    simp [s.self.takesEdge_iff, s.self.isTransmitting_iff.mpr htr]
  · have hidle : s.self.isTransmitting = false := by
      rw [← Bool.not_eq_true, s.self.isTransmitting_iff]
      exact fun ⟨e, he⟩ => hfree e he
    exact exec_edge_eq (Node.onTransition_of_takes (s.self.takesEdge_iff.mpr
      ⟨hset, hie, hidle, s.self.atMaskedEnd_eq_false_iff.mpr hpast⟩))

end Sys2Proof.Machine
end

section
/-! SUPPORT. The command word's fields, what its decoder answers, and the value a `SETP` word carries; then the
statements on encodings (spec/30_encoding.md R85 to R103). -/

namespace Sys2Proof

/-! ### The fields of a word -/

/-- Under the mask of a field only that field is left, at its place. -/
theorem and_field_mask (w lo len : Nat) : w &&& (2 ^ len - 1) * 2 ^ lo = field w lo len * 2 ^ lo := by
  refine Nat.eq_of_testBit_eq fun i => ?_
  simp only [field, Nat.testBit_and, Nat.testBit_mul_two_pow, Nat.testBit_two_pow_sub_one,
    Nat.testBit_mod_two_pow, Nat.testBit_div_two_pow]
  by_cases h : lo ≤ i
  · simp [h, Bool.and_comm, Nat.sub_add_cancel h]
  · simp [h]

/-- Under the masks of two fields both are left, each at its place. -/
theorem and_two_field_masks (w hi lenHi lo lenLo : Nat) (h : lo + lenLo ≤ hi) :
    w &&& ((2 ^ lenHi - 1) * 2 ^ hi ||| (2 ^ lenLo - 1) * 2 ^ lo) =
      field w hi lenHi * 2 ^ hi + field w lo lenLo * 2 ^ lo := by
  have hlt : field w lo lenLo * 2 ^ lo < 2 ^ hi :=
    calc field w lo lenLo * 2 ^ lo < 2 ^ lenLo * 2 ^ lo :=
          Nat.mul_lt_mul_of_pos_right (Nat.mod_lt _ (by positivity)) (by positivity)
      _ = 2 ^ (lo + lenLo) := by rw [Nat.add_comm, Nat.pow_add]
      _ ≤ 2 ^ hi := Nat.pow_le_pow_right (by norm_num) h
  rw [Nat.and_or_distrib_left, and_field_mask, and_field_mask, Nat.mul_comm _ (2 ^ hi),
    ← Nat.two_pow_add_eq_or_of_lt hlt]

theorem field_lt (w lo len : Nat) : field w lo len < 2 ^ len := Nat.mod_lt _ (by positivity)

/-! ### What the decoder of command words answers -/

/-- The words that decode: one row for each command, with its `op`, its must-be-zero bits and its operands;
R98 to R103. -/
theorem decodeCommand_eq_ok_iff (cw : Nat) (i : Instr) :
    decodeCommand 32 cw = .ok i ↔
      (field cw 29 3 = 1 ∧ field cw 24 5 = 0 ∧ field cw 5 3 = 0 ∧
        i = .init (field cw 16 8) (field cw 8 8) (field cw 0 4) (roleOfFlag (field cw 4 1))) ∨
      (field cw 29 3 = 2 ∧ field cw 24 5 = 0 ∧ i = .setp (BitVec.ofInt 32 (sint24 (field cw 0 24)))) ∨
      (field cw 29 3 = 3 ∧ field cw 24 5 = 0 ∧ field cw 4 20 = 0 ∧ i = .req (field cw 0 4)) ∨
      (field cw 29 3 = 4 ∧ i = .xmit (field cw 0 24) (field cw 24 5)) := by
  unfold decodeCommand
  rw [if_pos rfl]
  split
  case h_1 hop => split_ifs with hz <;> simp [hop, eq_comm] <;> tauto
  case h_2 hop => split_ifs with hz <;> simp [hop, hz, eq_comm]
  case h_3 hop => split_ifs with hz <;> simp [hop, eq_comm] <;> tauto
  case h_4 hop => simp [hop, eq_comm]
  case h_5 h1 h2 h3 h4 =>
    refine iff_of_false (fun h => by cases h) ?_
    rintro (⟨h, _⟩ | ⟨h, _⟩ | ⟨h, _⟩ | ⟨h, _⟩)
    exacts [h1 h, h2 h, h3 h, h4 h]

/-! A code that fits its width is read by the decoder of its format. -/

theorem decode_symbol {nbits bits : Nat} (h : bits < 2 ^ nbits) :
    decode { format := .symbol, nbits := nbits, bits := bits } = decodeSymbol nbits bits := if_pos h

theorem decode_frame {nbits bits : Nat} (h : bits < 2 ^ nbits) :
    decode { format := .frame, nbits := nbits, bits := bits } = decodeFrame nbits bits := if_pos h

theorem decode_event {nbits bits : Nat} (h : bits < 2 ^ nbits) :
    decode { format := .event, nbits := nbits, bits := bits } = decodeEvent nbits bits := if_pos h

theorem decode_command {nbits bits : Nat} (h : bits < 2 ^ nbits) :
    decode { format := .command, nbits := nbits, bits := bits } = decodeCommand nbits bits := if_pos h

/-- What decodes fits its width. -/
theorem fits_of_decode {c : Code} {i : Instr} (h : decode c = .ok i) : c.bits < 2 ^ c.nbits := by
  by_contra hn
  rw [decode, if_neg hn] at h
  cases h

/-! ### Operands: the role flag and the sign-extended value -/

theorem roleOfFlag_flag (r : Role) : roleOfFlag r.flag = r := by
  cases r <;> rfl

theorem flag_roleOfFlag (b : Nat) (h : b < 2) : (roleOfFlag b).flag = b := by
  interval_cases b <;> rfl

/-- The signed reading of a 24-bit pattern is in the range that sign extension keeps. -/
theorem sint24_bounds (p : Nat) (h : p < 2 ^ 24) : -8388608 ≤ sint24 p ∧ sint24 p ≤ 8388607 := by
  unfold sint24
  split <;> omega

theorem toInt_ofInt_sint24 (p : Nat) (h : p < 2 ^ 24) : (BitVec.ofInt 32 (sint24 p)).toInt = sint24 p := by
  obtain ⟨hlo, hhi⟩ := sint24_bounds p h
  exact BitVec.toInt_ofInt_eq_self (by norm_num) (by norm_num; omega) (by norm_num; omega)

/-- A value that a `SETP` word can carry is the sign extension of its low 24 bits; R100. -/
theorem sint24_low_of_fitsSetp (v : Value) (h : fitsSetp v = true) : sint24 (v.toNat % 2 ^ 24) = v.toInt := by
  have hv := v.isLt
  simp only [fitsSetp, decide_eq_true_eq, BitVec.toInt_eq_toNat_cond] at h
  rw [BitVec.toInt_eq_toNat_cond]
  unfold sint24
  split at h <;> split <;> omega

/-- The low 24 bits of a sign-extended pattern are the pattern. -/
theorem low_of_sint24 (p : Nat) (h : p < 2 ^ 24) : (BitVec.ofInt 32 (sint24 p)).toNat % 2 ^ 24 = p := by
  have hi := toInt_ofInt_sint24 p h
  have hv := (BitVec.ofInt 32 (sint24 p)).isLt
  rw [BitVec.toInt_eq_toNat_cond] at hi
  generalize (BitVec.ofInt 32 (sint24 p)).toNat = m at hi hv ⊢
  unfold sint24 at hi
  split at hi <;> split at hi <;> omega

theorem fitsSetp_sint24 (p : Nat) (h : p < 2 ^ 24) : fitsSetp (BitVec.ofInt 32 (sint24 p)) = true := by
  rw [fitsSetp, toInt_ofInt_sint24 p h]
  exact decide_eq_true (sint24_bounds p h)

/-! ### Decoding undoes encoding -/

/-- A command word that fits decodes to `i` when its fields are those of one of the rows. -/
theorem decode_commandWord (op w arg : Nat) (i : Instr) (hfit : op * 2 ^ 29 + w * 2 ^ 24 + arg < 2 ^ 32)
    (h : decodeCommand 32 (op * 2 ^ 29 + w * 2 ^ 24 + arg) = .ok i) : decode (commandWord op w arg) = .ok i :=
  (decode_command hfit).trans h

/-- Settles O1: symbols, frames and events are read back bit for bit, and a command word by its fields. -/
theorem decodeOfEncodeIsTheOperation : Obligations.DecodeOfEncodeIsTheOperation := by
  intro i h
  cases i with
  | bit1 | bit0 | wake | release => rfl
  | addr a =>
    exact (decode_frame (Laws.EncodingFits.addr a h)).trans (by simp [decodeFrame, encode])
  | data d =>
    exact (decode_frame (Laws.EncodingFits.data d h)).trans (by simp [decodeFrame, encode])
  | edge level => cases level <;> rfl
  | init rxPin txPin own role =>
    refine decode_commandWord _ _ _ _ (Laws.EncodingFits.init rxPin txPin own role h) ?_
    simp only [Instr.wellFormed, decide_eq_true_eq] at h
    have hflag : role.flag < 2 := by cases role <;> decide
    refine (decodeCommand_eq_ok_iff _ _).mpr (.inl ?_)
    simp only [field, Instr.init.injEq]
    exact ⟨by omega, by omega, by omega, by omega, by omega, by omega,
      (roleOfFlag_flag role).symm.trans (congrArg roleOfFlag (by omega))⟩
  | setp v =>
    refine decode_commandWord _ _ _ _ (Laws.EncodingFits.setp v h) ?_
    have hlow : field (2 * 2 ^ 29 + 0 * 2 ^ 24 + v.toNat % 2 ^ 24) 0 24 = v.toNat % 2 ^ 24 := by
      simp only [field]; omega
    refine (decodeCommand_eq_ok_iff _ _).mpr (.inr (.inl ⟨?_, ?_, ?_⟩))
    · simp only [field]; omega
    · simp only [field]; omega
    · rw [hlow, sint24_low_of_fitsSetp v h, BitVec.ofInt_toInt]
  | req target =>
    refine decode_commandWord _ _ _ _ (Laws.EncodingFits.req target h) ?_
    simp only [Instr.wellFormed, decide_eq_true_eq] at h
    refine (decodeCommand_eq_ok_iff _ _).mpr (.inr (.inr (.inl ?_)))
    simp only [field, Instr.req.injEq]
    omega
  | xmit value width =>
    refine decode_commandWord _ _ _ _ (Laws.EncodingFits.xmit value width h) ?_
    simp only [Instr.wellFormed, decide_eq_true_eq] at h
    refine (decodeCommand_eq_ok_iff _ _).mpr (.inr (.inr (.inr ?_)))
    simp only [field, Instr.xmit.injEq]
    omega

/-! ### Encoding undoes decoding -/

theorem encode_of_decodeSymbol {nbits bits : Nat} {i : Instr} (h : decodeSymbol nbits bits = .ok i) :
    i.wellFormed = true ∧ encode i = { format := .symbol, nbits := nbits, bits := bits } := by
  unfold decodeSymbol at h
  split_ifs at h with h1 h0 hw hr
  · obtain ⟨rfl, rfl⟩ := h1; cases h; exact ⟨rfl, rfl⟩
  · obtain ⟨rfl, rfl⟩ := h0; cases h; exact ⟨rfl, rfl⟩
  · obtain ⟨rfl, rfl⟩ := hw; cases h; exact ⟨rfl, rfl⟩
  · obtain ⟨rfl, rfl⟩ := hr; cases h; exact ⟨rfl, rfl⟩

theorem encode_of_decodeFrame {nbits bits : Nat} {i : Instr} (hfit : bits < 2 ^ nbits)
    (h : decodeFrame nbits bits = .ok i) :
    i.wellFormed = true ∧ encode i = { format := .frame, nbits := nbits, bits := bits } := by
  unfold decodeFrame at h
  split_ifs at h with ha hd
  · subst ha; cases h
    exact ⟨rfl, by rw [encode, BitVec.toNat_ofNat, Nat.mod_eq_of_lt hfit]⟩
  · subst hd; cases h
    exact ⟨rfl, by rw [encode, BitVec.toNat_ofNat, Nat.mod_eq_of_lt hfit]⟩

theorem encode_of_decodeEvent {nbits bits : Nat} {i : Instr} (hfit : bits < 2 ^ nbits)
    (h : decodeEvent nbits bits = .ok i) :
    i.wellFormed = true ∧ encode i = { format := .event, nbits := nbits, bits := bits } := by
  unfold decodeEvent at h
  split_ifs at h with he
  subst he; cases h
  refine ⟨rfl, ?_⟩
  interval_cases bits <;> rfl

theorem commandWord_eq {op w arg bits : Nat} (h : op * 2 ^ 29 + w * 2 ^ 24 + arg = bits) :
    commandWord op w arg = { format := .command, nbits := 32, bits := bits } := by
  rw [commandWord, h]

theorem encode_of_decodeCommand {nbits bits : Nat} {i : Instr} (hfit : bits < 2 ^ nbits)
    (h : decodeCommand nbits bits = .ok i) :
    i.wellFormed = true ∧ encode i = { format := .command, nbits := nbits, bits := bits } := by
  by_cases hn : nbits = 32
  case neg => rw [decodeCommand, if_neg hn] at h; cases h
  subst hn
  rcases (decodeCommand_eq_ok_iff _ _).mp h with
    ⟨hop, hw, hmbz, rfl⟩ | ⟨hop, hw, rfl⟩ | ⟨hop, hw, hmbz, rfl⟩ | ⟨hop, rfl⟩
  · refine ⟨decide_eq_true ⟨field_lt .., field_lt .., field_lt ..⟩, commandWord_eq ?_⟩
    rw [flag_roleOfFlag _ (field_lt bits 4 1)]
    simp only [field] at hop hw hmbz ⊢
    omega
  · refine ⟨fitsSetp_sint24 _ (field_lt bits 0 24), commandWord_eq ?_⟩
    rw [low_of_sint24 _ (field_lt bits 0 24)]
    simp only [field] at hop hw ⊢
    omega
  · refine ⟨decide_eq_true (field_lt ..), commandWord_eq ?_⟩
    simp only [field] at hop hw hmbz ⊢
    omega
  · refine ⟨decide_eq_true ⟨field_lt .., field_lt ..⟩, commandWord_eq ?_⟩
    simp only [field] at hop ⊢
    omega

/-- Settles O2: for each format the encoder gives back the bits the decoder has read. -/
theorem encodeOfDecodeIsTheCode : Obligations.EncodeOfDecodeIsTheCode := by
  rintro ⟨format, nbits, bits⟩ i h
  have hfit := fits_of_decode h
  cases format with
  | symbol => exact encode_of_decodeSymbol ((decode_symbol hfit).symm.trans h)
  | frame => exact encode_of_decodeFrame hfit ((decode_frame hfit).symm.trans h)
  | event => exact encode_of_decodeEvent hfit ((decode_event hfit).symm.trans h)
  | command => exact encode_of_decodeCommand hfit ((decode_command hfit).symm.trans h)

/-! ### Which command words decode -/

/-- A command word decodes when its `op` is one of the four and its must-be-zero bits are 0; R98, R103. -/
theorem decodeCommand_isOk_iff (cw : Nat) :
    (∃ i, decodeCommand 32 cw = .ok i) ↔
      (field cw 29 3 = 1 ∧ field cw 24 5 = 0 ∧ field cw 5 3 = 0) ∨
      (field cw 29 3 = 2 ∧ field cw 24 5 = 0) ∨
      (field cw 29 3 = 3 ∧ field cw 24 5 = 0 ∧ field cw 4 20 = 0) ∨ field cw 29 3 = 4 := by
  simp only [decodeCommand_eq_ok_iff, exists_or, ← and_assoc, exists_and_left, exists_eq, and_true]

/-- Settles O3: what each mask of R98 leaves of the word is the fields its row tests. -/
theorem commandWordDecodesExactlyUnderItsMask : Obligations.CommandWordDecodesExactlyUnderItsMask := by
  intro w hw
  have hinit : w &&& 0xFF0000E0 = field w 24 8 * 2 ^ 24 + field w 5 3 * 2 ^ 5 :=
    and_two_field_masks w 24 8 5 3 (by norm_num)
  have hsetp : w &&& 0xFF000000 = field w 24 8 * 2 ^ 24 := and_field_mask w 24 8
  have hreq : w &&& 0xFFFFFFF0 = field w 4 28 * 2 ^ 4 := and_field_mask w 4 28
  have hxmit : w &&& 0xE0000000 = field w 29 3 * 2 ^ 29 := and_field_mask w 29 3
  rw [decode_command hw, decodeCommand_isOk_iff, hinit, hsetp, hreq, hxmit]
  simp only [field]
  omega

end Sys2Proof

namespace Sys2Proof.Machine

open Sys2Proof

/-! ### The word at the port -/

/-- An operation at the port whose encoding stands for none is refused; R103. -/
theorem step_of_decode_error {s : State} {q : Issue} {e : DecodeError} (hq : s.port = some q)
    (hd : decode q.code = .error e) : step s = .refused (.reservedEncoding e) := by
  rw [step_of_port s q hq, runPort, hd]

/-- Running an operation on the state's own node is its meaning. -/
theorem runOn_zero (i : Instr) (s : State) : runOn 0 i s = exec i s := by
  simp only [runOn, State.focus_zero, State.unfocus_zero]
  cases exec i s <;> rfl

/-- Settles O4: none of the listed words has the fields of a row of the table. -/
theorem reservedCommandWordIsRefused : Obligations.ReservedCommandWordIsRefused := by
  intro s k w hw hq hreserved
  have hnone : ¬ ∃ i, decode { format := .command, nbits := 32, bits := w } = .ok i := by
    rw [decode_command hw, decodeCommand_isOk_iff]
    simp only [field]
    omega
  cases hd : decode { format := .command, nbits := 32, bits := w } with
  | ok i => exact absurd ⟨i, hd⟩ hnone
  | error e => exact ⟨e, step_of_decode_error hq hd⟩

/-- Settles O5, by running the decoder on each word. -/
theorem wordsOfTheSpecDecode : Obligations.WordsOfTheSpecDecode :=
  ⟨rfl, rfl, rfl, rfl, rfl, rfl, rfl⟩

/-- Settles O6: the port is looked at first, and node 0 is the state's own. -/
theorem stepRunsThePresentedOperation : Obligations.StepRunsThePresentedOperation := by
  intro s c i hq hd
  rw [step_of_port s _ hq, runPort, hd]
  exact runOn_zero i s.takePort

end Sys2Proof.Machine
end

section
/-! SUPPORT. What a bare symbol or frame drives, and where the markers of a request fall; then the statements on
symbols and frames (spec/30_encoding.md R80 to R90, spec/42_bit_transmitter.md R157 to R160). -/

namespace Sys2Proof.Machine

open Sys2Proof

/-! ### Bare symbols and frames -/

/-- At a symbol boundary a bare symbol acts on its node and on nothing else. -/
theorem State.symbolOp_of_boundary {s : State} (h : s.self.symbolBoundary = true) (f : Node → Node) :
    s.symbolOp f = .next { s with self := f s.self } := if_pos h

/-- A bare bit symbol drives its level for the body, then the other level until the slot ends. -/
theorem Node.drive_bitSegs_hold (par : Config) (n : Node) (b : Level) :
    n.drive (bitSegs par b) .hold =
      { n with
        tx := b
        act := .transmitting (n.clock + (par.body + par.pulsePeriod))
        sched := [{ time := n.clock + par.body, level := !b }]
        ending := .hold } := rfl

/-- A bare wake pulse drives high for one pulse period and schedules nothing. -/
theorem Node.drive_wakeSegs_hold (par : Config) (n : Node) :
    n.drive (wakeSegs par) .hold =
      { n with
        tx := true, act := .transmitting (n.clock + par.pulsePeriod), sched := [], ending := .hold } := rfl

/-- A bare frame drives its slots, and nothing after them. -/
theorem Node.drive_waveform_hold (par : Config) (hw : par.wf = true) (n : Node) (value width : Nat)
    (h0 : 0 < width) :
    n.drive (waveform par value width) .hold =
      { n with
        tx := value.testBit (width - 1)
        act := .transmitting (n.clock + par.bitPeriod * width)
        sched := slotChanges par n.clock value width
        ending := .hold } := by
  rw [n.drive_waveform par hw value width .hold h0, releaseAt, List.append_nil]

/-- `BODY` with the stated constants; R9. -/
theorem body_of_stated {par : Config} (hb : par.bitPeriod = 80) (hp : par.pulsePeriod = 25) : par.body = 55 := by
  rw [Config.body, hb, hp]

/-- Settles O11: the body lasts 55 and the slot 80. -/
theorem bit1IsHighThenLow : Obligations.Bit1IsHighThenLow := by
  intro s hb hp hbd
  rw [exec, execBit1, State.symbolOp_of_boundary hbd, Node.drive_bitSegs_hold, body_of_stated hb hp, hp]
  rfl

/-- Settles O12: as for `BIT1`, with the levels exchanged. -/
theorem bit0IsLowThenHigh : Obligations.Bit0IsLowThenHigh := by
  intro s hb hp hbd
  rw [exec, execBit0, State.symbolOp_of_boundary hbd, Node.drive_bitSegs_hold, body_of_stated hb hp, hp]
  rfl

/-- Settles O13: the pulse is the only segment driven. -/
theorem wakeIsOneHighPulse : Obligations.WakeIsOneHighPulse := by
  intro s hbd
  rw [exec, execWake, State.symbolOp_of_boundary hbd, Node.drive_wakeSegs_hold]

/-- Settles O14: at a symbol boundary `RELEASE` runs. -/
theorem releaseReturnsThePinToLow : Obligations.ReleaseReturnsThePinToLow := by
  intro s hbd
  rw [exec, execRelease, State.symbolOp_of_boundary hbd]

/-- Settles O15: both frames carry a bit, so their waveforms are the stated slots. -/
theorem framesAreTheirBitsAsSlots : Obligations.FramesAreTheirBitsAsSlots := by
  intro s hw hbd
  obtain ⟨_, _, _, _, haddr, hdata, _⟩ := wf_parts s.par hw
  refine ⟨fun a => ?_, fun d => ?_⟩
  · rw [exec, execAddr, State.symbolOp_of_boundary hbd, Node.drive_waveform_hold _ hw _ _ _ haddr]
  · rw [exec, execData, State.symbolOp_of_boundary hbd, Node.drive_waveform_hold _ hw _ _ _ hdata]

/-! ### The markers of a request -/

/-- The marker of slot `k` of a waveform, most significant bit first, begins one body after the slot's start. -/
theorem marker_mem_changesFrom (par : Config) (t value w k : Nat) (hk : k < w) :
    { time := t + (par.body + par.pulsePeriod) * k + par.body, level := !value.testBit (w - 1 - k) } ∈
      changesFrom t (waveform par value w) := by
  induction w generalizing t k with
  | zero => omega
  | succ w ih =>
    simp only [waveform, bitSegs, List.cons_append, List.nil_append, changesFrom]
    cases k with
    | zero => simp
    | succ k =>
      have htime : t + (par.body + par.pulsePeriod) * (k + 1) + par.body =
          t + par.body + par.pulsePeriod + (par.body + par.pulsePeriod) * k + par.body := by ring
      rw [htime, show w + 1 - 1 - (k + 1) = w - 1 - k by omega]
      exact List.mem_cons_of_mem _ (List.mem_cons_of_mem _ (ih _ k (by omega)))

/-- What a request schedules: after the wake pulse the address frame, and then the release; R90, R170. -/
theorem Node.request_sched (par : Config) (target : Nat) (n : Node) :
    (n.request par target).sched =
      changesFrom (n.clock + par.pulsePeriod) (waveform par target par.addrW) ++
        [{ time := n.clock + duration (requestSegs par target), level := false }] := rfl

theorem duration_requestSegs (par : Config) (target : Nat) :
    duration (requestSegs par target) = par.pulsePeriod + par.addrW * (par.body + par.pulsePeriod) := by
  rw [requestSegs, duration_append, duration_waveform]
  rfl

/-- Settles O23: the address frame starts 25 after the request, each slot lasts 80, its marker begins 55 into
it, and the release follows the fourth slot. -/
theorem requestMarkersFallOnWholeBitPeriods : Obligations.RequestMarkersFallOnWholeBitPeriods := by
  intro s g hb hp ha hidle
  have hbody := body_of_stated hb hp
  refine ⟨_, if_pos (s.self.isIdle_iff.mpr hidle), fun k hk => ?_, ?_⟩
  · rw [State.onSelf_self, Node.request_sched, ha]
    have hmem := marker_mem_changesFrom s.par (s.self.clock + s.par.pulsePeriod) g 4 k hk
    rw [hbody, hp, show s.self.clock + 25 + (55 + 25) * k + 55 = s.self.clock + 80 * (k + 1) by ring] at hmem
    rw [hp]
    exact List.mem_append_left _ hmem
  · rw [State.onSelf_self, Node.request_sched, List.getLast?_concat, duration_requestSegs, hbody, hp, ha]

end Sys2Proof.Machine
end

section
/-! SUPPORT. The number a run of bits spells, and what a synchronised decoder holds after a run of consecutive
bits and after a whole frame; then the statements on reception (spec/30_encoding.md R92 to R94,
spec/40_frame_decoder.md R116, spec/41_address_dispatch.md R130 to R136). -/

namespace Sys2Proof.Machine

open Sys2Proof

/-! ### The number a run of bits spells -/

/-- The low `w` bits of a number, most significant first, spell it modulo `2^w`; R92. -/
theorem bitsValue_testBits (v w : Nat) :
    bitsValue ((List.range w).map fun k => v.testBit (w - 1 - k)) = v % 2 ^ w := by
  induction w with
  | zero => simp [bitsValue, Nat.mod_one]
  | succ w ih =>
    have htail : ((List.range w).map Nat.succ).map (fun k => v.testBit (w + 1 - 1 - k)) =
        (List.range w).map fun k => v.testBit (w - 1 - k) := by
      rw [List.map_map]
      exact List.map_congr_left fun k _ => by simp only [Function.comp]; congr 1; omega
    rw [List.range_succ_eq_map, List.map_cons, htail, bitsValue, ih, Nat.mod_pow_succ]
    simp [Nat.toNat_testBit, Nat.add_comm, Nat.mul_comm]

/-- One bit more at the end doubles the number and adds the bit. -/
theorem bitsValue_concat (bits : List Level) (b : Level) :
    bitsValue (bits ++ [b]) = 2 * bitsValue bits + b.toNat := by
  induction bits with
  | nil => simp [bitsValue]
  | cons c rest ih =>
    simp only [List.cons_append, bitsValue, ih, List.length_append, List.length_cons, List.length_nil]
    ring

/-- Shifting a bit into the register that holds the number of a run gives the register of the longer run; R92. -/
theorem shiftIn_bitsValue (bits : List Level) (b : Level) :
    shiftIn (BitVec.ofNat 32 (bitsValue bits)) b = BitVec.ofNat 32 (bitsValue (bits ++ [b])) := by
  apply BitVec.eq_of_toNat_eq
  rw [shiftIn_toNat, BitVec.toNat_ofNat, BitVec.toNat_ofNat, bitsValue_concat, Nat.add_mod, Nat.mul_mod_mod,
    ← Nat.add_mod]

/-! ### A run of edges, one after another -/

theorem Node.receive_append (par : Config) (run run' : List (Nat × Level)) (n : Node) :
    n.receive par (run ++ run') = (n.receive par run).receive par run' := by
  induction run generalizing n with
  | nil => rfl
  | cons e rest ih => exact ih _

/-- What a synchronised decoder is said to hold after a run of bits that completes no frame; R92, R116. -/
def Node.afterBits (n : Node) (run : List (Nat × Level)) : Node :=
  { n with
    clock := n.clock + (run.map Prod.fst).sum
    dec := {
      lastEdgeTimestamp := n.clock + (run.map Prod.fst).sum
      bitsAccumulated := run.length
      ignoreRemaining := 0
      shiftRegister := BitVec.ofNat 32 (bitsValue (run.map Prod.snd)) } }

/-- The reference edge of a synchronised decoder is this instant, with nothing counted and nothing to discard;
R113, R114. -/
abbrev Node.Synchronised (n : Node) : Prop :=
  n.dec = { lastEdgeTimestamp := n.clock, bitsAccumulated := 0, ignoreRemaining := 0, shiftRegister := 0 }

theorem Node.afterBits_nil {n : Node} (h : n.Synchronised) : n.afterBits [] = n := by
  show { n with dec := ⟨n.clock, 0, 0, 0⟩ } = n
  rw [← h]

/-- A listening node goes on listening while time passes and its decoder works. -/
theorem Node.takesEdge_tick_afterBits {n : Node} (h : n.Listening) (run : List (Nat × Level)) (d : Nat) :
    ((n.afterBits run).tick d).takesEdge = true := by
  obtain ⟨hset, hie, htr, hend⟩ := h
  refine (Node.takesEdge_iff _).mpr ⟨hset, hie, htr, (Node.atMaskedEnd_eq_false_iff _).mpr fun t ht => ?_⟩
  have := n.atMaskedEnd_eq_false_iff.mp hend t ht
  simp only [Node.tick_clock, Node.afterBits]
  omega

theorem Node.delta_tick_afterBits (n : Node) (run : List (Nat × Level)) (d : Nat) :
    ((n.afterBits run).tick d).delta = d :=
  Nat.add_sub_cancel_left _ _

theorem Node.shifted_tick_afterBits (n : Node) (run : List (Nat × Level)) (d : Nat) (level : Level) :
    ((n.afterBits run).tick d).shifted level =
      BitVec.ofNat 32 (bitsValue ((run ++ [(d, level)]).map Prod.snd)) := by
  rw [List.map_append]
  exact shiftIn_bitsValue _ _

/-- The next edge of the run is a decoder step from what the run before it has left. -/
theorem Node.receive_concat {par : Config} {n : Node} {run : List (Nat × Level)} (hlisten : n.Listening)
    (h : n.receive par run = n.afterBits run) (d : Nat) (level : Level) :
    n.receive par (run ++ [(d, level)]) = ((n.afterBits run).tick d).edge par level := by
  rw [Node.receive_append, h]
  exact Node.onTransition_of_takes (Node.takesEdge_tick_afterBits hlisten run d)

/-- A dispatched bit that does not complete the frame of the node's role is only counted; R116. -/
theorem Node.edge_incomplete {par : Config} {n : Node} {level : Level}
    (hbit : n.edgeLabel par level = n.dispatchLabel par level)
    (h : n.dec.bitsAccumulated + 1 ≠ par.frameW n.cfg.role) : n.edge par level = n.onBit level := by
  rcases n.dispatchLabel_cases par level with ⟨_, hl⟩ | ⟨hr, hb, _⟩ | ⟨hr, hb, _⟩ | ⟨hr, hb, _⟩
  · rw [Node.edge, hbit, hl]
  · rw [hr] at h; exact absurd hb h
  · rw [hr] at h; exact absurd hb h
  · rw [hr] at h; exact absurd hb h

/-- A dispatched bit that completes a listener's frame matches or misses; R131. -/
theorem Node.edge_listener {par : Config} {n : Node} {level : Level}
    (hbit : n.edgeLabel par level = n.dispatchLabel par level) (hr : n.cfg.role = .listener)
    (hb : n.dec.bitsAccumulated + 1 = par.frameW n.cfg.role) :
    n.edge par level =
      if (n.shifted level).toNat = n.cfg.ownAddress.toNat then n.onMatch par else n.onMiss par := by
  rcases n.dispatchLabel_cases par level with ⟨h, _⟩ | ⟨_, _, ha, hl⟩ | ⟨_, _, ha, hl⟩ | ⟨h, _⟩
  · exact absurd hb h
  · rw [Node.edge, hbit, hl, if_pos (of_decide_eq_true ha)]
  · rw [Node.edge, hbit, hl, if_neg (of_decide_eq_false ha)]
  · rw [hr] at h; cases h

/-- A dispatched bit that completes a controller's frame is captured; R135. -/
theorem Node.edge_controller {par : Config} {n : Node} {level : Level}
    (hbit : n.edgeLabel par level = n.dispatchLabel par level) (hr : n.cfg.role = .controller)
    (hb : n.dec.bitsAccumulated + 1 = par.frameW n.cfg.role) : n.edge par level = n.onData par level := by
  rcases n.dispatchLabel_cases par level with ⟨h, _⟩ | ⟨h, _⟩ | ⟨h, _⟩ | ⟨_, _, hl⟩
  · exact absurd hb h
  · rw [hr] at h; cases h
  · rw [hr] at h; cases h
  · rw [Node.edge, hbit, hl]

/-- An edge at consecutive-bit spacing is neither a glitch nor a frame timeout, and nothing is to discard: it
is dispatched; R116, R130. -/
theorem Node.edgeLabel_tick_afterBits {par : Config} {d : Nat} (hg : par.glitchT ≤ d) (hf : d ≤ par.frameT)
    (n : Node) (run : List (Nat × Level)) (level : Level) :
    ((n.afterBits run).tick d).edgeLabel par level = ((n.afterBits run).tick d).dispatchLabel par level := by
  rcases ((n.afterBits run).tick d).edgeLabel_cases par level with
    ⟨h, _⟩ | ⟨_, h, _⟩ | ⟨_, _, h, _⟩ | ⟨_, _, _, h⟩
  · rw [n.delta_tick_afterBits] at h; omega
  · rw [n.delta_tick_afterBits] at h; omega
  · exact absurd h (Nat.lt_irrefl 0)
  · exact h

theorem Node.clock_afterBits_concat (n : Node) (run : List (Nat × Level)) (d : Nat) (level : Level) :
    (n.afterBits (run ++ [(d, level)])).clock = (n.afterBits run).clock + d := by
  simp [Node.afterBits, Nat.add_assoc]

/-- The bit of an edge that completes no frame is counted with the run. -/
theorem Node.onBit_tick_afterBits (n : Node) (run : List (Nat × Level)) (d : Nat) (level : Level) :
    ((n.afterBits run).tick d).onBit level = n.afterBits (run ++ [(d, level)]) := by
  have hclock := n.clock_afterBits_concat run d level
  simp only [Node.afterBits] at hclock
  rw [Node.onBit, n.shifted_tick_afterBits]
  simp only [Node.tick, Node.afterBits, hclock, List.length_append, List.length_singleton]

/-- The end of a frame resets what the last bit has left of it. -/
theorem Node.frameDone_tick_afterBits (n : Node) (run : List (Nat × Level)) (d : Nat) (level : Level) :
    ((n.afterBits run).tick d).frameDone = (n.afterBits (run ++ [(d, level)])).frameDone := by
  have hclock := n.clock_afterBits_concat run d level
  simp only [Node.afterBits] at hclock
  simp only [Node.frameDone, Node.tick, Node.afterBits, hclock]

/-! ### Bits, and whole frames -/

/-- Settles O38, by induction on the run from its end: each further edge contributes one bit. -/
theorem bitsAreAssembledFirstBitFirst : Obligations.BitsAreAssembledFirstBitFirst := by
  intro par n run _ hlisten hsync htimed hlen
  show n.receive par run = n.afterBits run
  induction run using List.reverseRecOn with
  | nil => exact (Node.afterBits_nil hsync).symm
  | append_singleton run e ih =>
    obtain ⟨d, level⟩ := e
    obtain ⟨hg, hf⟩ := htimed (d, level) (by simp)
    rw [List.length_append, List.length_singleton] at hlen
    have hrun := ih (fun e he => htimed e (List.mem_append_left _ he)) (by omega)
    rw [Node.receive_concat hlisten hrun,
      Node.edge_incomplete (Node.edgeLabel_tick_afterBits hg hf n run level) hlen.ne]
    exact n.onBit_tick_afterBits run d level

/-- A whole frame is the run of its bits but the last, and one decoder step more. -/
theorem Node.receive_frame {par : Config} {n : Node} {run : List (Nat × Level)} (hw : par.wf = true)
    (hlisten : n.Listening) (hsync : n.Synchronised) (htimed : BitTimed par run)
    (hlen : run.length = par.frameW n.cfg.role) :
    ∃ front d level, run = front ++ [(d, level)] ∧ front.length + 1 = par.frameW n.cfg.role ∧
      ((n.afterBits front).tick d).edgeLabel par level = ((n.afterBits front).tick d).dispatchLabel par level ∧
      n.receive par run = ((n.afterBits front).tick d).edge par level := by
  rcases List.eq_nil_or_concat' run with rfl | ⟨front, ⟨d, level⟩, rfl⟩
  · exact absurd hlen.symm (frameW_pos par hw _).ne'
  · rw [List.length_append, List.length_singleton] at hlen
    obtain ⟨hg, hf⟩ := htimed (d, level) (by simp)
    have hfront : n.receive par front = n.afterBits front :=
      bitsAreAssembledFirstBitFirst par n front hw hlisten hsync
        (fun e he => htimed e (List.mem_append_left _ he)) (by omega)
    exact ⟨front, d, level, rfl, hlen, Node.edgeLabel_tick_afterBits hg hf n front level,
      Node.receive_concat hlisten hfront d level⟩

/-- A synchronised listener compares the number that the bits of a frame spell with its address; R131 to R133. -/
theorem Node.receive_address {par : Config} {n : Node} {run : List (Nat × Level)} (hw : par.wf = true)
    (hlisten : n.Listening) (hrole : n.cfg.role = .listener) (hsync : n.Synchronised)
    (htimed : BitTimed par run) (hlen : run.length = par.addrW) :
    n.receive par run =
      if (BitVec.ofNat 32 (bitsValue (run.map Prod.snd))).toNat = n.cfg.ownAddress.toNat then
        (n.afterBits run).onMatch par
      else (n.afterBits run).onMiss par := by
  obtain ⟨front, d, level, rfl, hfront, hbit, hlast⟩ :=
    Node.receive_frame hw hlisten hsync htimed (by rw [hrole]; exact hlen)
  have hdone := n.frameDone_tick_afterBits front d level
  rw [hlast, Node.edge_listener hbit hrole hfront, n.shifted_tick_afterBits, Node.onMatch, Node.onMiss, hdone]
  rfl

/-- A synchronised controller delivers the number that the bits of a frame spell, as a signed value; R135. -/
theorem Node.receive_payload {par : Config} {n : Node} {run : List (Nat × Level)} (hw : par.wf = true)
    (hlisten : n.Listening) (hrole : n.cfg.role = .controller) (hsync : n.Synchronised)
    (htimed : BitTimed par run) (hlen : run.length = par.dataW) :
    n.receive par run = (n.afterBits run).frameDone.deliver
      (captureValue par.dataW (BitVec.ofNat 32 (bitsValue (run.map Prod.snd)))) := by
  obtain ⟨front, d, level, rfl, hfront, hbit, hlast⟩ :=
    Node.receive_frame hw hlisten hsync htimed (by rw [hrole]; exact hlen)
  rw [hlast, Node.edge_controller hbit hrole hfront, Node.onData, n.frameDone_tick_afterBits front d level,
    n.shifted_tick_afterBits]

/-- The delivered value is the signed reading of the low bits of the register; R135, R136. -/
theorem toInt_captureValue (w : Nat) (sr : ShiftReg) (hw : 0 < w) (hw' : w ≤ 32) :
    (captureValue w sr).toInt = sintOf w (sr.toNat % 2 ^ w) := by
  obtain ⟨hlo, hhi⟩ := sintOf_bounds w (sr.toNat % 2 ^ w) hw (Nat.mod_lt _ (by positivity))
  have hle : (2 : Int) ^ (w - 1) ≤ 2 ^ 31 := pow_le_pow_right₀ (by norm_num) (by omega)
  exact BitVec.toInt_ofInt_eq_self (by norm_num) (by norm_num; omega) (by norm_num; omega)

/-- The signed reading of a pattern is that of the bit vector that holds it. -/
theorem sintOf_toNat {w : Nat} (p : BitVec w) : sintOf w p.toNat = p.toInt := by
  rw [sintOf, BitVec.testBit_toNat, BitVec.toInt_eq_msb_cond, BitVec.msb_eq_getLsbD_last]
  push_cast
  rfl

/-- Settles O39: the 24 levels spell the payload, and its low 24 bits are all of it. -/
theorem controllerReceivesThePayloadAtItsPin : Obligations.ControllerReceivesThePayloadAtItsPin := by
  intro par n run p hw hdata hlisten hrole hsync htimed hbits
  have hlen : run.length = par.dataW := by simpa [hdata] using congrArg List.length hbits
  have hspell : bitsValue (run.map Prod.snd) = p.toNat := by
    rw [hbits]
    exact (bitsValue_testBits p.toNat 24).trans (Nat.mod_eq_of_lt p.isLt)
  refine ⟨captureValue 24 (BitVec.ofNat 32 p.toNat), ?_, ?_⟩
  · have hp := p.isLt
    rw [toInt_captureValue _ _ (by norm_num) (by norm_num), BitVec.toNat_ofNat,
      Nat.mod_mod_of_dvd _ (by norm_num), Nat.mod_eq_of_lt hp, sintOf_toNat]
  · rw [Node.receive_payload hw hlisten hrole hsync htimed hlen, hspell, hdata]
    rfl

/-- Settles O40: the four levels spell the address, so they match exactly when it is the node's own. -/
theorem listenerAnswersExactlyItsAddress : Obligations.ListenerAnswersExactlyItsAddress := by
  intro par n run a hw haddr hlisten hrole hsync htimed hbits
  obtain ⟨_, _, _, _, _, hdata, _⟩ := wf_parts par hw
  have hlen : run.length = par.addrW := by simpa [haddr] using congrArg List.length hbits
  have hspell : bitsValue (run.map Prod.snd) = a.toNat := by
    rw [hbits]
    exact (bitsValue_testBits a.toNat 4).trans (Nat.mod_eq_of_lt a.isLt)
  have hreg : (BitVec.ofNat 32 a.toNat).toNat = a.toNat := by
    have := a.isLt
    rw [BitVec.toNat_ofNat]
    omega
  have hreceive : n.receive par run =
      if a = n.cfg.ownAddress then (n.afterBits run).onMatch par else (n.afterBits run).onMiss par := by
    simp only [Node.receive_address hw hlisten hrole hsync htimed hlen, hspell, hreg, BitVec.toNat_inj]
  rw [hreceive]
  refine ⟨fun hown => ?_, fun hother => ?_⟩
  · rw [if_pos hown, Node.onMatch_eq, Node.transmit_waveform par hw _ _ _ _ hdata]
    refine ⟨rfl, rfl, ?_, rfl⟩
    have hlast : par.dataW - 1 < par.dataW := by omega
    show (truncTo par.dataW n.pay.outgoing).testBit (par.dataW - 1) = _
    rw [truncTo, Nat.testBit_mod_two_pow, decide_eq_true hlast, Bool.true_and, BitVec.testBit_toNat]
  · rw [if_neg hother]
    exact ⟨rfl, hlisten.2.1, rfl, rfl, rfl⟩

end Sys2Proof.Machine
end

section
/-! SUPPORT. Which line of a script an event brings to the port; then the statement on scripts
(spec/30_encoding.md R105, spec/60_exceptions.md R211; log entries 8 and 26). -/

namespace Sys2Proof.Machine

open Sys2Proof

/-! ### The line that is presented -/

/-- The first element of which `p` holds is the first of which a stronger `q` holds, when `q` holds of it. -/
theorem find?_eq_some_of_imp {α : Type} {p q : α → Bool} {l : List α} {a : α} (h : l.find? p = some a)
    (hq : q a = true) (himp : ∀ b, q b = true → p b = true) : l.find? q = some a := by
  obtain ⟨_, before, after, hl, hbefore⟩ := List.find?_eq_some_iff_append.mp h
  refine List.find?_eq_some_iff_append.mpr ⟨hq, before, after, hl, fun b hb => ?_⟩
  have hp := hbefore b hb
  rw [Bool.not_eq_true'] at hp ⊢
  by_contra hqb
  rw [himp b (by simpa using hqb)] at hp
  cases hp

/-- The line that is presented leaves the script for the port. -/
theorem State.present_of_find {p : Arrival → Bool} {s : State} {a : Arrival} (h : s.inbox.find? p = some a) :
    s.present p = { s with inbox := s.inbox.erase a, port := some a.issue } := by
  simp only [State.present, h]

theorem State.dueEdge_iff (s : State) (a : Arrival) :
    s.dueEdge a = true ↔ a.issue.code.format = .event ∧ a.time ≤ s.now := by
  simp only [State.dueEdge, State.due, Bool.and_eq_true, decide_eq_true_eq, and_comm]

theorem State.dueAt_iff (k : Nat) (s : State) (a : Arrival) :
    s.dueAt k a = true ↔ a.time ≤ s.now ∧ a.issue.node = k ∧ a.issue.code.format ≠ .event := by
  simp only [State.dueAt, State.due, Bool.and_eq_true, decide_eq_true_eq, and_assoc]

/-- A due receive transition is what `State.dueEdge` finds. -/
theorem State.any_dueEdge {s : State} (h : ∃ a ∈ s.inbox, a.issue.code.format = .event ∧ a.time ≤ s.now) :
    s.inbox.any s.dueEdge = true := by
  obtain ⟨a, ha, hdue⟩ := h
  exact List.any_eq_true.mpr ⟨a, ha, (s.dueEdge_iff a).mpr hdue⟩

/-- With no receive transition due, the lines of node `k` that are due are found as the due lines of that node. -/
theorem State.find?_dueAt {s : State} (he : s.NoEdgeDue) (k : Nat) :
    s.inbox.find? (s.dueAt k) = s.inbox.find? fun b => decide (b.issue.node = k ∧ b.time ≤ s.now) := by
  refine List.find?_congr fun b hb => Bool.eq_iff_iff.mpr ?_
  rw [s.dueAt_iff, decide_eq_true_eq]
  refine ⟨fun ⟨ht, hk, _⟩ => ⟨hk, ht⟩, fun ⟨hk, ht⟩ => ⟨ht, hk, fun hev => ?_⟩⟩
  have := he b hb hev
  omega

/-- A node whose due operations would change its pin has a line that is due. -/
theorem State.find?_dueAt_of_wouldDrive {s : State} {k : Nat} {n : Node} (h : s.wouldDrive k n = true) :
    ∃ a, s.inbox.find? (s.dueAt k) = some a := by
  refine Option.isSome_iff_exists.mp (List.find?_isSome.mpr ?_)
  by_contra hnone
  push Not at hnone
  have hnil : s.inbox.filter (s.dueAt k) = [] := List.filter_eq_nil_iff.mpr hnone
  rw [State.wouldDrive, hnil] at h
  cases h

/-! ### Receive transitions first -/

/-- With everything before it done, a due receive transition is the next event. -/
theorem State.phase_of_dueEdge {s : State} (hshown : s.Shown) (hchange : s.NoChangeDue)
    (hdue : s.inbox.any s.dueEdge = true) : s.phase = .stimulus := by
  obtain ⟨hport, hwire, hpending⟩ := s.shown_iff.mp hshown
  simp [State.phase, hport, ← hwire, hpending, s.noChangeDue_iff.mp hchange, hdue]

/-- While a receive transition is due, an event brings nothing else to the port. -/
theorem State.event_port_of_dueEdge {s : State} (hport : s.port = none) (hdue : s.inbox.any s.dueEdge = true)
    (q : Issue) (hq : (s.event s.phase).port = some q) : q.code.format = .event := by
  have kept (f : Node → Node) (wire : Level) : ({ s with wire := wire }.mapNodes f).port ≠ some q := by
    show s.port ≠ some q
    simp [hport]
  have hunsettled : ¬ s.Settled := fun h => by
    rw [s.noEdgeDue_iff.mp h.2.2.1] at hdue
    cases hdue
  rcases s.phase_of_unsettled hport hunsettled with
    ⟨_, hph⟩ | ⟨_, _, hph⟩ | ⟨_, _, hph⟩ | ⟨_, _, _, hph⟩ | ⟨_, _, _, _, hph⟩ <;> rw [hph] at hq
  · exact absurd hq (kept _ s.busLevel)
  · exact absurd hq (kept _ s.wire)
  · exact absurd hq (kept _ s.wire)
  · rcases s.present_cases s.dueEdge with ⟨a, _, ha, hp⟩ | ⟨hnone, _⟩
    · rw [State.event, hp] at hq
      cases hq
      exact ((s.dueEdge_iff a).mp ha).1
    · rw [hnone] at hdue; cases hdue
  · exact absurd hq (kept _ s.wire)

/-! ### The other lines -/

/-- With the instant settled, no wait over and a line due, the next event presents the lines of a node that
would drive, or else the first due line. -/
theorem State.event_of_dueLine {s : State} (hset : s.Settled) (hwait : s.NoWaitAnswered)
    (hdl : s.NoDeadlineReached) (hdue : s.inbox.any s.due = true) :
    (∃ k n, s.wouldDrive k n = true ∧ s.event s.phase = s.present (s.dueAt k)) ∨
      s.event s.phase = s.present s.due := by
  have hanswered := s.noWaitAnswered_iff.mp hwait
  have htimed := (s.noDeadlineReached_iff hwait).mp hdl
  rw [s.phase_of_settled hset, hanswered, htimed, hdue]
  cases hdrv : s.driver with
  | some k =>
    obtain ⟨n, _, hw⟩ := s.firstNode_some _ k hdrv
    exact .inl ⟨k, n, hw, by simp [State.event, hdrv]⟩
  | none =>
    have hyld : s.yielder = none := by
      by_contra hne
      obtain ⟨k, hk⟩ := Option.ne_none_iff_exists'.mp hne
      obtain ⟨n, hn, hp⟩ := s.firstNode_some _ k hk
      have hnot := List.any_eq_false.mp htimed n (List.mem_of_getElem? hn)
      exact hnot (Bool.and_eq_true_iff.mp hp).1
    exact .inr (by simp [State.event, hyld])

/-- The first line that is due is presented, and it is the first due line of its node. -/
theorem State.present_due_first {s : State} (hdue : s.inbox.any s.due = true) :
    ∃ a, s.inbox.find? (fun b => decide (b.issue.node = a.issue.node ∧ b.time ≤ s.now)) = some a ∧
      s.present s.due = { s with inbox := s.inbox.erase a, port := some a.issue } := by
  obtain ⟨a, hfind⟩ := Option.isSome_iff_exists.mp (List.find?_isSome.mpr (List.any_eq_true.mp hdue))
  have hadue : s.due a = true := List.find?_some hfind
  have ha : a.time ≤ s.now := of_decide_eq_true hadue
  exact ⟨a, find?_eq_some_of_imp hfind (decide_eq_true ⟨rfl, ha⟩)
    (fun b hb => decide_eq_true (of_decide_eq_true hb).2), State.present_of_find hfind⟩

/-- The first due line of a node that would drive is presented. -/
theorem State.present_dueAt_first {s : State} (he : s.NoEdgeDue) {k : Nat} {n : Node}
    (hw : s.wouldDrive k n = true) :
    ∃ a, s.inbox.find? (fun b => decide (b.issue.node = a.issue.node ∧ b.time ≤ s.now)) = some a ∧
      s.present (s.dueAt k) = { s with inbox := s.inbox.erase a, port := some a.issue } := by
  obtain ⟨a, hfind⟩ := State.find?_dueAt_of_wouldDrive hw
  obtain ⟨_, hk, _⟩ := (s.dueAt_iff k a).mp (List.find?_some hfind)
  exact ⟨a, by rw [hk, ← State.find?_dueAt he, hfind], State.present_of_find hfind⟩

/-- Settles O60: a due receive transition is the only line an event can present, and without one the line
presented is the first of its node. -/
theorem dueLinesReachThePortEdgesFirst : Obligations.DueLinesReachThePortEdgesFirst := by
  refine ⟨fun s hshown hchange hedge => ?_, fun s t hport hstep hedge q hq => ?_, fun s hset hwait hdl hline => ?_⟩
  · have hdue := State.any_dueEdge hedge
    obtain ⟨a, hfind⟩ := Option.isSome_iff_exists.mp (List.find?_isSome.mpr (List.any_eq_true.mp hdue))
    refine ⟨a, ?_, ?_⟩
    · rw [← hfind]
      exact List.find?_congr fun b _ => Bool.eq_iff_iff.mpr (by rw [s.dueEdge_iff, decide_eq_true_eq])
    · rw [step_of_no_port s hshown.1, State.phase_of_dueEdge hshown hchange hdue, State.event,
        State.present_of_find hfind]
  · rw [step_of_no_port s hport] at hstep
    cases hstep
    exact State.event_port_of_dueEdge hport (State.any_dueEdge hedge) q hq
  · obtain ⟨b, hb, hle⟩ := hline
    have hdue : s.inbox.any s.due = true := List.any_eq_true.mpr ⟨b, hb, decide_eq_true hle⟩
    have ⟨hshown, _, hnoedge, _⟩ := hset
    rw [step_of_no_port s hshown.1]
    rcases State.event_of_dueLine hset hwait hdl hdue with ⟨k, n, hw, hev⟩ | hev
    · obtain ⟨a, hfind, hp⟩ := State.present_dueAt_first hnoedge hw
      exact ⟨a, hfind, by rw [hev, hp]⟩
    · obtain ⟨a, hfind, hp⟩ := State.present_due_first hdue
      exact ⟨a, hfind, by rw [hev, hp]⟩

end Sys2Proof.Machine
end

section
/-! SUPPORT. Each class of a decoder step as an equation, what glitches do to a run of edges, and the run of
markers that a waveform leaves of itself; then the statements on the Frame Decoder
(spec/40_frame_decoder.md R112 to R117, R120, R122). -/

namespace Sys2Proof.Machine

open Sys2Proof

/-! ### One decoder step: the classes R112 to R116 -/

/-- At a listening node a transition is a decoder step; R110. -/
theorem exec_edge_of_listening {s : State} (level : Level) (h : s.self.Listening) :
    exec (.edge level) s = .next { s with self := s.self.edge s.par level } :=
  exec_edge_eq (Node.onTransition_of_takes (s.self.takesEdge_iff.mpr h))

/-- An edge too soon after the reference changes nothing; R112. -/
theorem Node.edge_of_glitch {par : Config} {n : Node} (level : Level) (h : n.delta < par.glitchT) :
    n.edge par level = n := by
  rcases n.edge_cases par level with ⟨_, he⟩ | ⟨hg, _⟩ | ⟨hg, _⟩ | ⟨hg, _⟩
  · exact he
  all_goals exact absurd h (Nat.not_lt.mpr hg)

/-- A frame timeout clears the decoder's three fields; R114. -/
theorem Node.edge_of_timeout {par : Config} {n : Node} (level : Level) (hg : par.glitchT ≤ n.delta)
    (h : par.frameT < n.delta) : n.edge par level = n.onSync := by
  rcases n.edge_cases par level with ⟨hlt, _⟩ | ⟨_, _, he⟩ | ⟨_, hle, _⟩ | ⟨_, hle, _⟩
  · exact absurd hlt (Nat.not_lt.mpr hg)
  · exact he
  all_goals exact absurd h (Nat.not_lt.mpr hle)

/-- While edges are to be discarded, an edge of bit spacing is; R115. -/
theorem Node.edge_of_suppressed {par : Config} {n : Node} (level : Level) (hg : par.glitchT ≤ n.delta)
    (hf : n.delta ≤ par.frameT) (h : 0 < n.dec.ignoreRemaining) : n.edge par level = n.onSkip := by
  rcases n.edge_cases par level with ⟨hlt, _⟩ | ⟨_, hlt, _⟩ | ⟨_, _, _, he⟩ | ⟨_, _, hzero, _⟩
  · exact absurd hlt (Nat.not_lt.mpr hg)
  · exact absurd hlt (Nat.not_lt.mpr hf)
  · exact he
  · exact absurd hzero h.ne'

/-- With none to discard, an edge of bit spacing that completes no frame is a bit; R116. -/
theorem Node.edge_of_bit {par : Config} {n : Node} (level : Level) (hg : par.glitchT ≤ n.delta)
    (hf : n.delta ≤ par.frameT) (hi : n.dec.ignoreRemaining = 0)
    (h : n.dec.bitsAccumulated + 1 ≠ par.frameW n.cfg.role) : n.edge par level = n.onBit level := by
  rcases n.edgeLabel_cases par level with ⟨hlt, _⟩ | ⟨_, hlt, _⟩ | ⟨_, _, hpos, _⟩ | ⟨_, _, _, hbit⟩
  · exact absurd hlt (Nat.not_lt.mpr hg)
  · exact absurd hlt (Nat.not_lt.mpr hf)
  · exact absurd hi hpos.ne'
  · exact Node.edge_incomplete hbit h

/-- Whatever its class, an edge that is no glitch becomes the reference; R113. -/
theorem Node.edge_lastEdgeTimestamp {par : Config} {n : Node} (level : Level) (hg : par.glitchT ≤ n.delta) :
    (n.edge par level).dec.lastEdgeTimestamp = n.clock := by
  rcases n.edge_cases par level with
    ⟨hlt, _⟩ | ⟨_, _, he⟩ | ⟨_, _, _, he⟩ | ⟨_, _, _, ⟨_, he⟩ | ⟨_, _, _, he⟩ | ⟨_, _, _, he⟩ | ⟨_, _, he⟩⟩
  · exact absurd hlt (Nat.not_lt.mpr hg)
  all_goals simp [he]

/-- Shifting a level in is a shift by one place and a disjunction; R116. -/
theorem shiftIn_eq_or (sr : ShiftReg) (level : Level) :
    shiftIn sr level = sr <<< 1 ||| (BitVec.ofBool level).setWidth 32 := by
  have hdisjoint : sr <<< 1 &&& (BitVec.ofBool level).setWidth 32 = 0#32 := by
    ext i hi
    cases i <;> simp
  rw [← BitVec.add_eq_or_of_and_eq_zero _ _ hdisjoint]
  apply BitVec.eq_of_toNat_eq
  simp [shiftIn_toNat, Nat.shiftLeft_eq, Nat.mul_comm]

/-- Settles O27: the step ignores a glitch and takes the reference in each of its other outcomes. -/
theorem glitchIsIgnoredAndAnyOtherEdgeIsTheReference :
    Obligations.GlitchIsIgnoredAndAnyOtherEdgeIsTheReference := by
  intro s level hlisten
  have hstep := exec_edge_of_listening level hlisten
  refine ⟨fun hglitch => ?_, fun hg => ⟨_, hstep, Node.edge_lastEdgeTimestamp level hg⟩⟩
  rw [hstep, Node.edge_of_glitch level hglitch]

/-- Settles O28: a frame timeout is longer than two bit periods, so it is no glitch. -/
theorem frameTimeoutResynchronises : Obligations.FrameTimeoutResynchronises := by
  intro s level hlisten hw hf
  obtain ⟨_, hpulse, hglitch, hframe, _⟩ := wf_parts s.par hw
  have hg : s.par.glitchT ≤ s.self.delta := by unfold Node.delta; omega
  rw [exec_edge_of_listening level hlisten, Node.edge_of_timeout level hg hf]
  rfl

/-- Settles O29: such an edge is `SKIP`, which writes the reference and the count only. -/
theorem suppressedEdgeIsCountedOff : Obligations.SuppressedEdgeIsCountedOff := by
  intro s level hlisten hg hf hi
  rw [exec_edge_of_listening level hlisten, Node.edge_of_suppressed level hg hf hi]
  rfl

/-- Settles O30: the bit is counted, and the shift of R116 is the stated one. -/
theorem bitIsShiftedInAndCounted : Obligations.BitIsShiftedInAndCounted := by
  intro s level hlisten hg hf hi hincomplete
  rw [exec_edge_of_listening level hlisten, Node.edge_of_bit level hg hf hi hincomplete, Node.onBit, Node.shifted,
    shiftIn_eq_or]
  simp only [hi]

/-! ### Slots at the receive pin: marker-aligned tracking -/

/-- The markers that a receive pin sees of the slots of the low `w` bits of a value: one in each bit period, at
the complement of the slot's bit on the wire; R86, R120. -/
def markerRun (par : Config) (value : Nat) : Nat → List (Nat × Level)
  | 0 => []
  | w + 1 => (par.bitPeriod, rxLevel par (!value.testBit w)) :: markerRun par value w

theorem length_markerRun (par : Config) (value w : Nat) : (markerRun par value w).length = w := by
  induction w with
  | zero => rfl
  | succ w ih => rw [markerRun, List.length_cons, ih]

theorem sum_markerRun (par : Config) (value w : Nat) :
    ((markerRun par value w).map Prod.fst).sum = par.bitPeriod * w := by
  induction w with
  | zero => rfl
  | succ w ih => rw [markerRun, List.map_cons, List.sum_cons, ih, Nat.mul_succ, Nat.add_comm]

/-- The markers spell the value at an inverting receive pin, and its complement at another; R122. -/
theorem bitsValue_markerRun (par : Config) (value w : Nat) :
    bitsValue ((markerRun par value w).map Prod.snd) =
      if par.rxInvert then value % 2 ^ w else 2 ^ w - 1 - value % 2 ^ w := by
  induction w with
  | zero => simp [markerRun, bitsValue, Nat.mod_one]
  | succ w ih =>
    have hlt : value % 2 ^ w < 2 ^ w := Nat.mod_lt _ (by positivity)
    have hmod : value % 2 ^ (w + 1) = (value.testBit w).toNat * 2 ^ w + value % 2 ^ w := by
      rw [Nat.mod_pow_succ, Nat.toNat_testBit, Nat.mul_comm, Nat.add_comm]
    rw [markerRun, List.map_cons, bitsValue, ih, List.length_map, length_markerRun, hmod, pow_succ, rxLevel]
    cases par.rxInvert <;> cases value.testBit w <;> simp <;> omega

/-- An edge too soon after the reference is passed over, and the gap to the next edge counts from the
reference; R112. -/
theorem Node.receive_glitch {par : Config} {n : Node} (hlisten : n.Listening) (run : List (Nat × Level))
    {d : Nat} (hd : d < par.glitchT) (level : Level) (d' : Nat) (level' : Level) (rest : List (Nat × Level)) :
    (n.afterBits run).receive par ((d, level) :: (d', level') :: rest) =
      (n.afterBits run).receive par ((d + d', level') :: rest) := by
  have hskip : ((n.afterBits run).tick d).onTransition par level = (n.afterBits run).tick d := by
    rw [Node.onTransition_of_takes (Node.takesEdge_tick_afterBits hlisten run d)]
    exact Node.edge_of_glitch level (by rwa [n.delta_tick_afterBits])
  rw [Node.receive, hskip, Node.receive, Node.receive, Node.tick, Node.tick, Node.tick, Nat.add_assoc]

/-- An edge at consecutive-bit spacing that completes no frame is counted with the run before it; R116. -/
theorem Node.receive_bit {par : Config} {n : Node} (hlisten : n.Listening) {run : List (Nat × Level)}
    {d : Nat} (hg : par.glitchT ≤ d) (hf : d ≤ par.frameT) (hlen : run.length + 1 < par.frameW n.cfg.role)
    (level : Level) (rest : List (Nat × Level)) :
    (n.afterBits run).receive par ((d, level) :: rest) =
      (n.afterBits (run ++ [(d, level)])).receive par rest := by
  rw [Node.receive, Node.onTransition_of_takes (Node.takesEdge_tick_afterBits hlisten run d),
    Node.edge_incomplete (Node.edgeLabel_tick_afterBits hg hf n run level) hlen.ne, n.onBit_tick_afterBits]

/-- Of a slot that starts one pulse after the reference, a decoder takes the marker, one bit period after the
reference, as a bit; the slot's start is no transition or a glitch. R120. -/
theorem Node.receive_slot {par : Config} {n : Node} (hw : par.wf = true) (hlisten : n.Listening)
    {run : List (Nat × Level)} (hlen : run.length + 1 < par.frameW n.cfg.role) {t : Nat} (level b : Level)
    (rest : List TxChange) :
    (n.afterBits run).receive par (transitions par t level
        ({ time := t + par.pulsePeriod, level := b } :: { time := t + par.bitPeriod, level := !b } :: rest)) =
      (n.afterBits (run ++ [(par.bitPeriod, rxLevel par !b)])).receive par
        (transitions par (t + par.bitPeriod) (!b) rest) := by
  obtain ⟨hpos, hpulse, hglitch, hframe, _⟩ := wf_parts par hw
  have hmarker (rest : List (Nat × Level)) := Node.receive_bit (par := par) (d := par.bitPeriod) hlisten
    (by omega) (by omega) hlen (rxLevel par !b) rest
  by_cases hstart : b = level
  · rw [transitions, if_pos hstart, transitions, if_neg (by simp [← hstart]), Nat.add_sub_cancel_left, hmarker]
  · have hgap : par.pulsePeriod + (t + par.bitPeriod - (t + par.pulsePeriod)) = par.bitPeriod := by omega
    rw [transitions, if_neg hstart, transitions, if_neg (by simp), Nat.add_sub_cancel_left,
      Node.receive_glitch hlisten run (by omega), hgap, hmarker]

/-- A decoder whose reference is one pulse before the first of a run of slots takes their markers as its bits and
nothing else; by induction on the slots. R120. -/
theorem Node.receive_slots {par : Config} {n : Node} (hw : par.wf = true) (hlisten : n.Listening) (value w : Nat)
    (run : List (Nat × Level)) (level : Level) (hlen : run.length + w < par.frameW n.cfg.role) :
    (n.afterBits run).receive par (transitions par (n.afterBits run).clock level
        (changesFrom ((n.afterBits run).clock + par.pulsePeriod) (waveform par value w))) =
      n.afterBits (run ++ markerRun par value w) := by
  induction w generalizing run level with
  | zero => rw [markerRun, List.append_nil]; rfl
  | succ w ih =>
    have hmarker (t : Nat) : t + par.pulsePeriod + par.body = t + par.bitPeriod := by
      rw [← body_add_pulse par hw, Nat.add_assoc, Nat.add_comm par.pulsePeriod]
    simp only [waveform, bitSegs, List.cons_append, List.nil_append, changesFrom, hmarker]
    rw [Node.receive_slot hw hlisten (by omega), ← n.clock_afterBits_concat, ih _ _ (by simp; omega),
      List.append_assoc]
    rfl

/-- Settles O42: the slots are a waveform that starts one pulse after the reference, so the decoder holds the
number that their markers spell. -/
theorem markerAlignedReceptionRecoversTheValue : Obligations.MarkerAlignedReceptionRecoversTheValue := by
  intro par n v w hw hlisten hpos hlen hsync
  obtain ⟨k, rfl⟩ := Nat.exists_eq_succ_of_ne_zero hpos.ne'
  have hslots := Node.receive_slots hw hlisten v (k + 1) [] true (by simpa using hlen)
  rw [Node.afterBits_nil hsync, changesFrom_waveform par hw, List.nil_append] at hslots
  simp only [Nat.succ_eq_add_one, Nat.add_sub_cancel, hslots, Node.afterBits, sum_markerRun, length_markerRun,
    bitsValue_markerRun]

end Sys2Proof.Machine
end

section
/-! SUPPORT. The frame that a dispatched bit completes, the response a match sends, the value a capture delivers,
what an edge can do at a controller, and a run of suppressed edges; then the statements on the address matcher
and dispatcher (spec/41_address_dispatch.md R130 to R138). -/

namespace Sys2Proof.Machine

open Sys2Proof

/-! ### The frame that a bit completes -/

/-- With none to discard, an edge of bit spacing is dispatched; R116, R130. -/
theorem Node.edgeLabel_of_bitTimed {par : Config} {n : Node} (level : Level) (hg : par.glitchT ≤ n.delta)
    (hf : n.delta ≤ par.frameT) (hi : n.dec.ignoreRemaining = 0) :
    n.edgeLabel par level = n.dispatchLabel par level := by
  rcases n.edgeLabel_cases par level with ⟨hlt, _⟩ | ⟨_, hlt, _⟩ | ⟨_, _, hpos, _⟩ | ⟨_, _, _, hbit⟩
  · exact absurd hlt (Nat.not_lt.mpr hg)
  · exact absurd hlt (Nat.not_lt.mpr hf)
  · exact absurd hi hpos.ne'
  · exact hbit

/-- The comparison of the accumulated bits with the address is one of whole registers; R131. -/
theorem Node.shifted_toNat_eq_ownAddress_iff (n : Node) (level : Level) :
    (n.shifted level).toNat = n.cfg.ownAddress.toNat ↔
      n.dec.shiftRegister <<< 1 ||| (BitVec.ofBool level).setWidth 32 = n.cfg.ownAddress.setWidth 32 := by
  rw [← BitVec.toNat_setWidth_of_le (show 4 ≤ 32 by decide), BitVec.toNat_inj, Node.shifted, shiftIn_eq_or]

/-- With none to discard, the end of a frame leaves in the decoder what a frame timeout does; R114, R134. -/
theorem Node.frameDone_eq_onSync {n : Node} (hi : n.dec.ignoreRemaining = 0) : n.frameDone = n.onSync := by
  simp only [Node.frameDone, Node.onSync, hi]

/-- Settles O32: the completed frame is another address, and `MISS` writes the decoder's fields only. -/
theorem addressMismatchSuppresses : Obligations.AddressMismatchSuppresses := by
  intro s level hlisten hg hf hi hrole hcomplete hother
  have hdispatch := Node.edgeLabel_of_bitTimed level hg hf hi
  rw [exec_edge_of_listening level hlisten, Node.edge_listener hdispatch hrole (by rw [hrole]; exact hcomplete),
    if_neg (mt (s.self.shifted_toNat_eq_ownAddress_iff level).mp hother)]
  rfl

/-! ### The response to a match -/

/-- A waveform takes from its value the bits below its width and no others; R95, R156. -/
theorem waveform_mod_two_pow (par : Config) (value : Nat) {width k : Nat} (h : width ≤ k) :
    waveform par (value % 2 ^ k) width = waveform par value width := by
  induction width with
  | zero => rfl
  | succ w ih =>
    have hbit : (value % 2 ^ k).testBit w = value.testBit w := by
      rw [Nat.testBit_mod_two_pow, decide_eq_true (Nat.lt_of_succ_le h), Bool.true_and]
    rw [waveform, waveform, hbit, ih (Nat.le_of_succ_le h)]

/-- A match drives the slots of `outgoing` and then the release, as a closed transmission that gives the main
context its activity back; R132, R180. -/
theorem Node.onMatch_waveform (par : Config) (hw : par.wf = true) (n : Node) :
    n.onMatch par =
      { n.frameDone with
        ie := false
        tx := n.pay.outgoing.getLsbD (par.dataW - 1)
        act := .transmitting (n.clock + par.bitPeriod * par.dataW)
        sched := slotChanges par n.clock n.pay.outgoing.toNat par.dataW ++
          [{ time := n.clock + par.bitPeriod * par.dataW, level := false }]
        ending := .close n.act } := by
  obtain ⟨_, _, _, _, _, hdata, _⟩ := wf_parts par hw
  rw [Node.onMatch_eq, truncTo, waveform_mod_two_pow par _ (Nat.le_refl _),
    Node.transmit_waveform par hw _ _ _ _ hdata, BitVec.testBit_toNat]
  rfl

/-- Settles O31: the completed frame is the node's address, and the count to discard stays at 0. -/
theorem addressMatchTransmitsOutgoing : Obligations.AddressMatchTransmitsOutgoing := by
  intro s level hlisten hw hg hf hi hrole hcomplete hown
  have hdispatch := Node.edgeLabel_of_bitTimed level hg hf hi
  rw [exec_edge_of_listening level hlisten, Node.edge_listener hdispatch hrole (by rw [hrole]; exact hcomplete),
    if_pos ((s.self.shifted_toNat_eq_ownAddress_iff level).mpr hown), Node.onMatch_waveform _ hw,
    Node.frameDone_eq_onSync hi]
  rfl

/-! ### The value of a capture -/

/-- A captured value is the sign extension of the register's low bits; R135. -/
theorem captureValue_eq_signExtend (w : Nat) (sr : ShiftReg) :
    captureValue w sr = (sr.setWidth w).signExtend 32 := by
  rw [captureValue, ← BitVec.toNat_setWidth, sintOf_toNat, BitVec.signExtend]

/-- Settles O33: the completed frame is captured, and the count to discard stays at 0. -/
theorem controllerCapturesItsFrame : Obligations.ControllerCapturesItsFrame := by
  intro s level hlisten hdata hg hf hi hrole hcomplete
  have hdispatch := Node.edgeLabel_of_bitTimed level hg hf hi
  have hframe : s.self.dec.bitsAccumulated + 1 = s.par.frameW s.self.cfg.role := by
    rw [hrole, hcomplete]; exact hdata.symm
  rw [exec_edge_of_listening level hlisten, Node.edge_controller hdispatch hrole hframe, Node.onData, hdata,
    captureValue_eq_signExtend, Node.shifted, shiftIn_eq_or, Node.frameDone_eq_onSync hi]
  rfl

/-- Settles O34: the captured value is the sign extension of the register's low 24 bits, whose signed reading
depends on the half of the range in which the pattern lies. -/
theorem signExtensionLaw : Obligations.SignExtensionLaw := by
  intro sr
  rw [captureValue_eq_signExtend, BitVec.toInt_signExtend_of_le (by decide), BitVec.toInt_eq_toNat_cond,
    BitVec.toNat_setWidth]
  refine ⟨fun htop => ?_, fun htop => ?_⟩
  · rw [if_neg (by omega)]; rfl
  · rw [if_pos (by omega)]

/-! ### What an edge can do at a controller -/

/-- Nothing is driven, no interrupt is masked and no suppression begins: what an edge leaves of a controller. -/
structure Node.StaysPassive (n m : Node) : Prop where
  tx : m.tx = n.tx
  act : m.act = n.act
  sched : m.sched = n.sched
  ie : m.ie = n.ie
  ignoreRemaining : m.dec.ignoreRemaining ≤ n.dec.ignoreRemaining

/-- Of the outcomes of a decoder step, `MATCH` and `MISS` are a listener's, and no other drives the pin or
suppresses; R130, R215. -/
theorem Node.edge_staysPassive (par : Config) (level : Level) {n : Node} (hrole : n.cfg.role = .controller) :
    n.StaysPassive (n.edge par level) := by
  rcases n.edge_cases par level with ⟨_, he⟩ | ⟨_, _, he⟩ | ⟨_, _, _, he⟩ |
      ⟨_, _, _, ⟨_, he⟩ | ⟨hr, _⟩ | ⟨hr, _⟩ | ⟨_, _, he⟩⟩
  · rw [he]; exact ⟨rfl, rfl, rfl, rfl, Nat.le_refl _⟩
  · rw [he]; exact ⟨rfl, rfl, rfl, rfl, Nat.zero_le _⟩
  · rw [he]; exact ⟨rfl, rfl, rfl, rfl, Nat.sub_le _ _⟩
  · rw [he]; exact ⟨rfl, rfl, rfl, rfl, Nat.le_refl _⟩
  · rw [hrole] at hr; cases hr
  · rw [hrole] at hr; cases hr
  · rw [he]; exact ⟨rfl, rfl, rfl, rfl, Nat.le_refl _⟩

theorem Node.maskEdge_staysPassive (par : Config) (n : Node) : n.StaysPassive (n.maskEdge par) := by
  rcases n.maskEdge_cases par with ⟨_, h⟩ | ⟨_, h⟩ <;> rw [h] <;> exact ⟨rfl, rfl, rfl, rfl, Nat.le_refl _⟩

theorem Node.onTransition_staysPassive (par : Config) (level : Level) {n : Node}
    (hrole : n.cfg.role = .controller) : n.StaysPassive (n.onTransition par level) := by
  unfold Node.onTransition
  rcases n.takeInterrupt_cases par (Node.edge par level) with ⟨_, h⟩ | ⟨_, _, h⟩ | ⟨_, _, h⟩ <;> rw [h]
  · exact n.edge_staysPassive par level hrole
  · exact n.maskEdge_staysPassive par
  · exact ⟨rfl, rfl, rfl, rfl, Nat.le_refl _⟩

/-- Settles O36: the payload registers change by a capture only, which is a controller's, and a controller stays
passive. -/
theorem roleLimitsWhatAnEdgeCanDo : Obligations.RoleLimitsWhatAnEdgeCanDo := by
  intro s t level hx
  cases hx
  refine ⟨fun hrole => ?_, fun hrole => ?_⟩
  · rcases s.self.onTransition_pay s.par level with h | hc
    · exact h
    · exact absurd (hrole.symm.trans hc.controller) (by decide)
  · obtain ⟨htx, hact, hsched, hie, hignore⟩ := Node.onTransition_staysPassive s.par level hrole
    exact ⟨htx, hact, hsched, hie, hignore⟩

/-! ### A run of suppressed edges -/

/-- A listening node goes on listening while time passes. -/
theorem Node.Listening.tick {n : Node} (h : n.Listening) (d : Nat) : (n.tick d).Listening := by
  obtain ⟨hset, hie, htr, hend⟩ := h
  refine ⟨hset, hie, htr, (Node.atMaskedEnd_eq_false_iff _).mpr fun t ht => ?_⟩
  exact Nat.lt_add_right d (n.atMaskedEnd_eq_false_iff.mp hend t ht)

/-- The first edge of a run, at bit spacing while edges are to be discarded, is discarded; R115. -/
theorem Node.receive_suppressed {par : Config} {n : Node} (hlisten : n.Listening)
    (href : n.dec.lastEdgeTimestamp = n.clock) {d : Nat} (hg : par.glitchT ≤ d) (hf : d ≤ par.frameT)
    (hi : 0 < n.dec.ignoreRemaining) (level : Level) (rest : List (Nat × Level)) :
    n.receive par ((d, level) :: rest) = (n.tick d).onSkip.receive par rest := by
  have hdelta : (n.tick d).delta = d := by
    rw [Node.delta, Node.tick_clock, Node.tick_dec, href, Nat.add_sub_cancel_left]
  rw [Node.receive, Node.onTransition_of_takes ((Node.takesEdge_iff _).mpr (hlisten.tick d)),
    Node.edge_of_suppressed (n := n.tick d) level (by rwa [hdelta]) (by rwa [hdelta]) hi]

/-- Settles O41, by induction on the run: each edge is counted off and becomes the reference of the next. -/
theorem suppressionDiscardsTheNextEdges : Obligations.SuppressionDiscardsTheNextEdges := by
  intro par n run hlisten href htimed hlen
  induction run generalizing n with
  | nil =>
    show n = { n with dec := { n.dec with lastEdgeTimestamp := n.clock } }
    exact congrArg (fun t => { n with dec := { n.dec with lastEdgeTimestamp := t } }) href
  | cons e rest ih =>
    obtain ⟨d, level⟩ := e
    obtain ⟨⟨hg, hf⟩, htimed⟩ := List.forall_mem_cons.mp htimed
    rw [List.length_cons] at hlen
    have hrest : rest.length ≤ (n.tick d).onSkip.dec.ignoreRemaining := Nat.le_sub_of_add_le hlen
    rw [Node.receive_suppressed hlisten href hg hf (by omega),
      ih (n.tick d).onSkip (hlisten.tick d) rfl htimed hrest]
    simp only [Node.onSkip, Node.tick, List.map_cons, List.sum_cons, List.length_cons, Nat.add_assoc, Nat.sub_sub,
      Nat.add_comm 1]

end Sys2Proof.Machine
end

section
/-! SUPPORT. What `XMIT` starts, the phases in which a pin changes and a transmission ends, and the run of a closed
transmission by a node alone on the wire; then the statements on the bit transmitter
(spec/42_bit_transmitter.md R150 to R157, spec/60_exceptions.md R225). -/

namespace Sys2Proof.Machine

open Sys2Proof

/-! ### What `XMIT` starts -/

/-- At an idle node `XMIT` starts the closed transmission of its waveform, and changes that node alone. -/
theorem exec_xmit_of_idle {s : State} (hidle : s.self.act = .idle) (v w : Nat) :
    exec (.xmit v w) s = .next { s with self := s.self.transmit (waveform s.par v w) .idle } :=
  if_pos (s.self.isIdle_iff.mpr hidle)

/-- Values that agree below the width have the same waveform; R156. -/
theorem waveform_congr_mod (par : Config) {v v' w : Nat} (h : v % 2 ^ w = v' % 2 ^ w) :
    waveform par v w = waveform par v' w := by
  rw [← waveform_mod_two_pow par v (Nat.le_refl w), h, waveform_mod_two_pow par v' (Nat.le_refl w)]

/-- Settles O18: the closed transmission of a waveform that has a slot. -/
theorem xmitStartsItsWaveform : Obligations.XmitStartsItsWaveform := by
  intro s v w hw hidle h0
  rw [exec_xmit_of_idle hidle, Node.transmit_waveform s.par hw s.self v w .idle h0]

/-- Settles O19: the waveform has no slot, so the transmission ends where it starts. -/
theorem xmitOfWidthZeroEndsAtOnce : Obligations.XmitOfWidthZeroEndsAtOnce := by
  intro s v hidle
  rw [exec_xmit_of_idle hidle, waveform]
  rfl

/-- Settles O20: `XMIT` takes nothing from its value but the waveform. -/
theorem xmitSendsOnlyTheLowBits : Obligations.XmitSendsOnlyTheLowBits := by
  intro s v v' w h
  simp only [exec, execXmit, Node.xmit, waveform_congr_mod s.par h]

/-! ### Pin changes and ends, once they are next -/

/-- Once the wire has been shown, a due pin change is the next event. -/
theorem State.phase_of_change {s : State} (hshown : s.Shown) (hdue : s.nodes.any Node.changeDue = true) :
    s.phase = .change := by
  obtain ⟨hport, hwire, hpending⟩ := s.shown_iff.mp hshown
  simp [State.phase, hport, ← hwire, hpending, hdue]

/-- With every pin change and presented edge done, the end of a transmission that is over is the next event. -/
theorem State.phase_of_finish {s : State} (hshown : s.Shown) (hchange : s.NoChangeDue) (hedge : s.NoEdgeDue)
    (hover : s.nodes.any Node.transmissionOver = true) : s.phase = .finish := by
  obtain ⟨hport, hwire, hpending⟩ := s.shown_iff.mp hshown
  simp [State.phase, hport, ← hwire, hpending, s.noChangeDue_iff.mp hchange, s.noEdgeDue_iff.mp hedge, hover]

/-- The step that applies the due pin changes. -/
theorem step_of_changeDue {s : State} (hshown : s.Shown) {n : Node} (hn : n ∈ s.nodes) {c : TxChange}
    {rest : List TxChange} (hsched : n.sched = c :: rest) (hle : c.time ≤ n.clock) :
    step s = .next s.applyChanges := by
  have hdue : n.changeDue = true := by simp [Node.changeDue, hsched, hle]
  rw [step_of_no_port s hshown.1, State.phase_of_change hshown (List.any_eq_true.mpr ⟨n, hn, hdue⟩), State.event]

/-- The step that ends the transmissions that are over. -/
theorem step_of_transmissionOver {s : State} (hshown : s.Shown) (hchange : s.NoChangeDue) (hedge : s.NoEdgeDue)
    {n : Node} (hn : n ∈ s.nodes) (hover : n.transmissionOver = true) :
    step s = .next s.finishTransmissions := by
  rw [step_of_no_port s hshown.1,
    State.phase_of_finish hshown hchange hedge (List.any_eq_true.mpr ⟨n, hn, hover⟩), State.event]

theorem Node.applyChange_of_due {n : Node} {c : TxChange} {rest : List TxChange} (hsched : n.sched = c :: rest)
    (hle : c.time ≤ n.clock) : n.applyChange = { n with tx := c.level, sched := rest } := by
  simp [Node.applyChange, hsched, hle]

theorem Node.applyChange_of_notDue {n : Node} (h : ∀ c ∈ n.sched.head?, n.clock < c.time) : n.applyChange = n := by
  rcases n.applyChange_cases with ⟨c, rest, hsched, hle, _⟩ | ⟨_, hkeep⟩
  · exact absurd (h c (by simp [hsched])) (Nat.not_lt.mpr hle)
  · exact hkeep

theorem Node.finishTransmission_of_over {n : Node} {stop : Nat} {next : Activity} (hact : n.act = .transmitting stop)
    (hend : n.ending = .close next) (hsched : n.sched = []) (hle : stop ≤ n.clock) :
    n.finishTransmission = n.closeTransmission next := by
  simp [Node.finishTransmission, n.transmissionOver_iff.mpr ⟨stop, next, hact, hend, hsched, hle⟩, hend]

/-- Settles O59: the next event applies the first change of every node that has one due. -/
theorem dueChangeIsPutOnThePin : Obligations.DueChangeIsPutOnThePin := by
  rintro s hshown ⟨n, hn, c, hc, hle⟩
  obtain ⟨rest, hsched⟩ := List.head?_eq_some_iff.mp hc
  refine ⟨s.applyChanges, step_of_changeDue hshown hn hsched hle, rfl, rfl, rfl, rfl, hshown.1, fun k m hm => ?_⟩
  have hk : s.applyChanges.nodes[k]? = some m.applyChange := by
    rw [State.applyChanges, State.mapNodes_nodes, List.getElem?_map, hm, Option.map_some]
  rw [hk]
  exact ⟨fun _ _ hs ht => congrArg some (Node.applyChange_of_due hs ht),
    fun hlater => congrArg some (Node.applyChange_of_notDue hlater)⟩

/-- Settles O44: the next event ends every transmission that is over. -/
theorem finishedTransmissionEnablesInterrupts : Obligations.FinishedTransmissionEnablesInterrupts := by
  intro s n k stop next hshown hchange hedge hk hact hend hsched hle
  have hover := n.transmissionOver_iff.mpr ⟨stop, next, hact, hend, hsched, hle⟩
  refine ⟨_, step_of_transmissionOver hshown hchange hedge (List.mem_of_getElem? hk) hover, ?_⟩
  rw [State.finishTransmissions, State.mapNodes_nodes, List.getElem?_map, hk, Option.map_some,
    Node.finishTransmission_of_over hact hend hsched hle, hsched]
  rfl

/-! ### Runs of steps -/

/-- Some number of steps leads from one state to the other; `State.Reaches.exists_run` ties it to the machine's
run. -/
def State.Reaches : State → State → Prop := Relation.ReflTransGen fun s t => step s = .next t

theorem run_succ_of_step {M : Host.Core} (k : Nat) {s t : M.State} (h : M.step s = .next t) :
    M.run (k + 1) s = M.run k t := by
  rw [Host.Core.run, h]

/-- States that steps lead to are reached by a run of the machine. -/
theorem State.Reaches.exists_run {s t : State} (h : s.Reaches t) :
    ∃ k, Host.Core.run Sys2Proof.core k s = .next t := by
  induction h using Relation.ReflTransGen.head_induction_on with
  | refl => exact ⟨0, rfl⟩
  | head hstep _ ih =>
    obtain ⟨k, hk⟩ := ih
    exact ⟨k + 1, (run_succ_of_step (M := Sys2Proof.core) k hstep).trans hk⟩

/-! ### A node alone on the wire -/

/-- Without peers, what every node does the state's own node does. -/
theorem State.mapNodes_of_no_peers {s : State} (h : s.peers = []) (f : Node → Node) :
    s.mapNodes f = { s with self := f s.self } := by
  rw [State.mapNodes, h, List.map_nil, ← h]

theorem State.tick_of_no_peers {s : State} (h : s.peers = []) (d : Nat) :
    s.tick d = { s with now := s.now + d, self := s.self.tick d } :=
  State.mapNodes_of_no_peers (s := { s with now := s.now + d }) h _

theorem State.nodes_of_no_peers {s : State} (h : s.peers = []) : s.nodes = [s.self] := by
  rw [State.nodes, h]

theorem State.busLevel_of_no_peers {s : State} (h : s.peers = []) : s.busLevel = (s.self.cfgSet && s.self.tx) := by
  rw [State.busLevel, s.nodes_of_no_peers h, List.any_cons, List.any_nil, Bool.or_false, Node.drivesHigh]

/-- Time that passes leaves the pins alone. -/
@[simp] theorem State.tick_busLevel (d : Nat) (s : State) : (s.tick d).busLevel = s.busLevel := by
  rw [State.busLevel, State.tick_nodes, List.any_map]
  rfl

/-- With a pin change to come, that change is what a node has next. -/
theorem Node.delays_of_sched {n : Node} {c : TxChange} {rest : List TxChange} (h : n.sched = c :: rest) :
    n.delays = [c.time - n.clock] := by
  rw [Node.delays, h]

/-- With every pin change done, the end is what a closed transmission has next. -/
theorem Node.delays_of_closing {n : Node} {stop : Nat} {next : Activity} (hsched : n.sched = [])
    (hact : n.act = .transmitting stop) (hend : n.ending = .close next) : n.delays = [stop - n.clock] := by
  rw [Node.delays, hsched, hact, hend]

theorem State.nextDelay_of_lone {s : State} (hpeers : s.peers = []) (hinbox : s.inbox = []) {d : Nat}
    (hd : s.self.delays = [d]) : s.nextDelay = some d := by
  rw [State.nextDelay, s.nodes_of_no_peers hpeers, hinbox, List.flatMap_singleton, hd]
  rfl

/-- On a lone node whose wire has been shown and whose wait is not over, time runs on to the one thing the node has
scheduled, when that lies ahead. -/
theorem State.reaches_tick {s : State} (hpeers : s.peers = []) (hinbox : s.inbox = []) (hshown : s.Shown)
    (hwait : s.NoWaitAnswered) (hdl : s.NoDeadlineReached) {d : Nat} (hd : s.self.delays = [d]) (hpos : 0 < d) :
    s.Reaches (s.tick d) := by
  have hnodes := s.nodes_of_no_peers hpeers
  have hnext := State.nextDelay_of_lone hpeers hinbox hd
  have hchange : s.NoChangeDue := by
    simp only [State.NoChangeDue, hnodes, List.forall_mem_singleton]
    intro c hc
    obtain ⟨rest, hsched⟩ := List.head?_eq_some_iff.mp hc
    rw [Node.delays_of_sched hsched, List.singleton_inj] at hd
    omega
  have hover : s.NoTransmissionOver := by
    simp only [State.NoTransmissionOver, hnodes, List.forall_mem_singleton]
    intro stop next hact hend hsched
    rw [Node.delays_of_closing hsched hact hend, List.singleton_inj] at hd
    omega
  have hphase : s.phase = .advance := (s.phase_eq_advance_iff hshown.1).mpr
    ⟨⟨hshown, hchange, by simp [State.NoEdgeDue, hinbox], hover⟩, hwait, by simp [State.NothingPresented, hinbox],
      hdl, by rw [hnext]; rfl⟩
  refine .single ?_
  rw [step_of_no_port s hshown.1, hphase, State.event, State.advance, hnext, Option.getD_some]

/-! ### A closed transmission on a lone wire -/

/-- A node alone on the wire under `drop` is in a closed transmission that ends at `stop` and is followed by
`next`. -/
structure State.SendsAlone (s : State) (stop : Nat) (next : Activity) : Prop where
  peers : s.peers = []
  inbox : s.inbox = []
  port : s.port = none
  policy : s.par.maskedEdges = .drop
  pend : s.self.pend = false
  ie : s.self.ie = false
  act : s.self.act = .transmitting stop
  ending : s.self.ending = .close next

/-- Under `drop` a node whose interrupts are disabled sees nothing of a transition; R152, R208. -/
theorem Node.onTransition_of_dropped {par : Config} {n : Node} (hpolicy : par.maskedEdges = .drop)
    (hie : n.ie = false) (level : Level) : n.onTransition par level = n := by
  rcases n.takeInterrupt_cases par (Node.edge par level) with ⟨htakes, _⟩ | ⟨_, _, h⟩ | ⟨_, _, h⟩
  · obtain ⟨_, hon, _⟩ := n.takesEdge_iff.mp htakes
    cases hie.symm.trans hon
  · exact h.trans (Node.maskEdge_of_drop hpolicy)
  · exact h

namespace State.SendsAlone

variable {s : State} {stop : Nat} {next : Activity}

/-- The node's own waveform changes the wire and nothing else. -/
theorem reaches_shown (h : s.SendsAlone stop next) : s.Reaches { s with wire := s.busLevel } := by
  by_cases hw : s.wire = s.busLevel
  · rw [← hw]
    exact .refl
  · have hphase : s.phase = .wire := by simp [State.phase, h.port, hw]
    refine .single ?_
    rw [step_of_no_port s h.port, hphase, State.event, State.wireRound,
      State.mapNodes_of_no_peers (s := { s with wire := s.busLevel }) h.peers,
      Node.onTransition_of_dropped h.policy h.ie]

/-- Once the wire has been shown nothing else is to be shown, for nothing is latched. -/
theorem shown (h : s.SendsAlone stop next) (hw : s.wire = s.busLevel) : s.Shown := by
  refine ⟨h.port, hw, ?_⟩
  rw [s.nodes_of_no_peers h.peers, List.forall_mem_singleton]
  exact fun _ => h.pend

theorem noWaitAnswered (h : s.SendsAlone stop next) : s.NoWaitAnswered := by
  simp [State.NoWaitAnswered, s.nodes_of_no_peers h.peers, h.act]

theorem noDeadlineReached (h : s.SendsAlone stop next) : s.NoDeadlineReached := by
  simp [State.NoDeadlineReached, s.nodes_of_no_peers h.peers, h.act]

/-- Showing the wire and letting time pass leave the transmission in progress. -/
theorem later (h : s.SendsAlone stop next) (d : Nat) :
    State.SendsAlone { s with now := s.now + d, wire := s.busLevel, self := s.self.tick d } stop next := { h with }

/-- The wire is shown and time runs on to what the node has next. -/
theorem reaches_tick (h : s.SendsAlone stop next) {d : Nat} (hd : s.self.delays = [d]) :
    s.Reaches { s with now := s.now + d, wire := s.busLevel, self := s.self.tick d } := by
  have hshow := h.reaches_shown
  rcases Nat.eq_zero_or_pos d with rfl | hpos
  · exact hshow
  · have h' : State.SendsAlone { s with wire := s.busLevel } stop next := { h with }
    have htick := State.reaches_tick h'.peers h'.inbox (h'.shown rfl) h'.noWaitAnswered h'.noDeadlineReached hd hpos
    rw [State.tick_of_no_peers h'.peers] at htick
    exact hshow.trans htick

/-- A pin change that is due is put on the pin. -/
theorem step_change (h : s.SendsAlone stop next) (hw : s.wire = s.busLevel) {c : TxChange} {rest : List TxChange}
    (hsched : s.self.sched = c :: rest) (hle : c.time ≤ s.self.clock) :
    step s = .next { s with self := { s.self with tx := c.level, sched := rest } } := by
  rw [step_of_changeDue (h.shown hw) List.mem_cons_self hsched hle, State.applyChanges,
    State.mapNodes_of_no_peers h.peers, Node.applyChange_of_due hsched hle]

/-- The transmission ends when everything is driven and its time has come. -/
theorem step_end (h : s.SendsAlone stop next) (hw : s.wire = s.busLevel) (hsched : s.self.sched = [])
    (hle : stop ≤ s.self.clock) : step s = .next { s with self := s.self.closeTransmission next } := by
  have hchange : s.NoChangeDue := by simp [State.NoChangeDue, s.nodes_of_no_peers h.peers, hsched]
  have hedge : s.NoEdgeDue := by simp [State.NoEdgeDue, h.inbox]
  have hover := s.self.transmissionOver_iff.mpr ⟨stop, next, h.act, h.ending, hsched, hle⟩
  rw [step_of_transmissionOver (h.shown hw) hchange hedge List.mem_cons_self hover, State.finishTransmissions,
    State.mapNodes_of_no_peers h.peers, Node.finishTransmission_of_over h.act h.ending hsched hle]

/-- The next pin change happens when its time comes. -/
theorem reaches_change (h : s.SendsAlone stop next) {c : TxChange} {rest : List TxChange}
    (hsched : s.self.sched = c :: rest) (hle : s.self.clock ≤ c.time) :
    s.Reaches { s with
      now := s.now + (c.time - s.self.clock), wire := s.busLevel
      self := { s.self with clock := c.time, tx := c.level, sched := rest } } := by
  obtain ⟨d, hc⟩ := Nat.exists_eq_add_of_le hle
  rw [hc, Nat.add_sub_cancel_left]
  have hd : s.self.delays = [d] := by rw [Node.delays_of_sched hsched, hc, Nat.add_sub_cancel_left]
  exact (h.reaches_tick hd).tail ((h.later d).step_change rfl hsched hc.le)

/-- With every pin change done, the transmission runs to its end. -/
theorem reaches_end (h : s.SendsAlone stop next) (hsched : s.self.sched = []) (hle : s.self.clock ≤ stop) :
    s.Reaches { s with
      now := s.now + (stop - s.self.clock), wire := s.busLevel
      self := Node.closeTransmission { s.self with clock := stop } next } := by
  obtain ⟨d, rfl⟩ := Nat.exists_eq_add_of_le hle
  rw [Nat.add_sub_cancel_left]
  have hd : s.self.delays = [d] := by
    rw [Node.delays_of_closing hsched h.act h.ending, Nat.add_sub_cancel_left]
  exact (h.reaches_tick hd).tail ((h.later d).step_end rfl hsched (Nat.le_refl _))

/-- The segments still to come and the release after them are driven, and then the transmission ends. -/
theorem reaches_close {segs : List Seg} {t : Nat} (h : s.SendsAlone (t + duration segs) next)
    (hsched : s.self.sched = changesFrom t segs ++ [{ time := t + duration segs, level := false }])
    (hle : s.self.clock ≤ t) :
    s.Reaches { s with
      now := s.now + (t + duration segs - s.self.clock), wire := false
      self := Node.closeTransmission { s.self with clock := t + duration segs } next } := by
  induction segs generalizing s t with
  | nil =>
    have h' : State.SendsAlone { s with
        now := s.now + (t - s.self.clock), wire := s.busLevel
        self := { s.self with clock := t, tx := false, sched := [] } } t next := { h with }
    have hend := h'.reaches_end rfl (Nat.le_refl t)
    rw [State.busLevel_of_no_peers h'.peers, Bool.and_false, Nat.sub_self] at hend
    exact (h.reaches_change hsched hle).trans hend
  | cons g rest ih =>
    have hstart := h.reaches_change hsched hle
    rw [duration, ← Nat.add_assoc] at h hstart ⊢
    have hrest := ih (s := { s with
        now := s.now + (t - s.self.clock), wire := s.busLevel
        self := { s.self with clock := t, tx := g.level, sched := changesFrom (t + g.dur) rest ++
          [{ time := t + g.dur + duration rest, level := false }] } }) (t := t + g.dur) { h with } rfl
        (Nat.le_add_right t g.dur)
    have hnow : s.now + (t - s.self.clock) + (t + g.dur + duration rest - t) =
        s.now + (t + g.dur + duration rest - s.self.clock) := by omega
    rw [hnow] at hrest
    exact hstart.trans hrest

end State.SendsAlone

/-- A closed transmission that a lone node with its pin low starts under `drop` runs to its end, when the duration
of its segments has passed; R150 to R155. -/
theorem State.Alone.transmit_reaches {s : State} (halone : s.Alone) (hpolicy : s.par.maskedEdges = .drop)
    (htx : s.self.tx = false) (segs : List Seg) (next : Activity) :
    State.Reaches { s with self := s.self.transmit segs next } { s with
      now := s.now + duration segs
      self := (s.self.tick (duration segs)).closeTransmission next } := by
  obtain ⟨hpeers, hinbox, hport, hwire, hpend⟩ := halone
  cases segs with
  | nil => exact .refl
  | cons g rest =>
    have hlow : s.wire = false := by rw [hwire, s.busLevel_of_no_peers hpeers, htx, Bool.and_false]
    have hdur : s.self.clock + g.dur + duration rest = s.self.clock + duration (g :: rest) := by
      rw [duration, Nat.add_assoc]
    have hclock : (s.self.transmit (g :: rest) next).clock = s.self.clock := s.self.transmit_clock _ _
    have hsends : State.SendsAlone { s with self := s.self.transmit (g :: rest) next }
        (s.self.clock + g.dur + duration rest) next :=
      ⟨hpeers, hinbox, hport, hpolicy, hpend, rfl, by rw [hdur]; rfl, rfl⟩
    have hclose := hsends.reaches_close (by rw [hdur]; rfl) (Nat.le_add_right _ _)
    rw [hdur, hclock, Nat.add_sub_cancel_left, ← hlow] at hclose
    exact hclose

/-- Where the pin is low, the end of a transmission leaves it as it is. -/
theorem Node.closeTransmission_of_low {n : Node} (htx : n.tx = false) (next : Activity) :
    n.closeTransmission next =
      { n with ie := true, act := next, sched := [], ending := .hold, maskedThrough := some n.clock } := by
  rw [Node.closeTransmission, ← htx]
  rfl

/-- Settles O55: the closed transmission of the waveform, which lasts one bit period for each bit, gives the main
context its idle activity back. -/
theorem loneXmitRunsToItsEnd : Obligations.LoneXmitRunsToItsEnd := by
  intro s v w halone hw hpolicy hidle htx
  have hexec := exec_xmit_of_idle hidle v w
  have hreach := halone.transmit_reaches hpolicy htx (waveform s.par v w) s.self.act
  rw [duration_waveform_wf s.par hw, Node.closeTransmission_of_low (n := s.self.tick _) htx] at hreach
  obtain ⟨k, hrun⟩ := hreach.exists_run
  rw [← hidle] at hexec
  exact ⟨_, k, hexec, hrun⟩

end Sys2Proof.Machine
end

section
/-! SUPPORT. What `REQ` starts, and how a wait goes on and how it ends; then the statements on the controller's
request (spec/43_controller_request.md R170 to R180, spec/60_exceptions.md R211). -/

namespace Sys2Proof.Machine

open Sys2Proof

/-! ### What `REQ` starts -/

/-- At an idle node `REQ` starts its request, and changes that node alone. -/
theorem exec_req_of_idle {s : State} (hidle : s.self.act = .idle) (g : Nat) :
    exec (.req g) s = .next { s with self := s.self.request s.par g } :=
  if_pos (s.self.isIdle_iff.mpr hidle)

/-- The wake pulse and then one bit period for each bit of the address; R90. -/
theorem duration_requestSegs_wf (par : Config) (hw : par.wf = true) (target : Nat) :
    duration (requestSegs par target) = par.pulsePeriod + par.bitPeriod * par.addrW := by
  rw [duration_requestSegs, body_add_pulse par hw, Nat.mul_comm]

/-- A request as a node: the pulse now, the slots of the address and the release to come, the wait to follow;
R170 to R174. -/
theorem Node.request_eq (par : Config) (hw : par.wf = true) (n : Node) (target : Nat) :
    n.request par target = { n with
      ie := false
      result := none
      tx := true
      act := .transmitting (n.clock + par.pulsePeriod + par.bitPeriod * par.addrW)
      sched := { time := n.clock + par.pulsePeriod, level := target.testBit (par.addrW - 1) } ::
        slotChanges par (n.clock + par.pulsePeriod) target par.addrW ++
          [{ time := n.clock + par.pulsePeriod + par.bitPeriod * par.addrW, level := false }]
      ending := .close (.waiting
        (n.clock + par.pulsePeriod + par.bitPeriod * par.addrW + par.reqTimeout)) } := by
  obtain ⟨_, _, _, _, haddr, _⟩ := wf_parts par hw
  obtain ⟨w, hwidth⟩ := Nat.exists_eq_succ_of_ne_zero haddr.ne'
  have hslots := changesFrom_waveform par hw (n.clock + par.pulsePeriod) target w
  have hstop : n.clock + duration (requestSegs par target) =
      n.clock + par.pulsePeriod + par.bitPeriod * par.addrW := by
    rw [duration_requestSegs_wf par hw, Nat.add_assoc]
  rw [← Nat.succ_eq_add_one, ← hwidth] at hslots
  rw [← hstop, show par.addrW - 1 = w by omega, ← hslots]
  rfl

/-- Settles O21: the request of an idle node. -/
theorem reqStartsWakePulseAndAddress : Obligations.ReqStartsWakePulseAndAddress := by
  intro s g hw hidle
  rw [exec_req_of_idle hidle, Node.request_eq s.par hw]

/-- Settles O22: the address frame takes the low bits of the target and no others. -/
theorem reqSendsTheTargetModuloTheAddressSpace : Obligations.ReqSendsTheTargetModuloTheAddressSpace := by
  intro s g
  have hsegs : requestSegs s.par (g % 2 ^ s.par.addrW) = requestSegs s.par g := by
    rw [requestSegs, waveform_mod_two_pow s.par g (Nat.le_refl _), ← requestSegs]
  have heffect : Node.request s.par (g % 2 ^ s.par.addrW) = Node.request s.par g := by
    funext n
    rw [Node.request, Node.request, hsegs]
  simp only [exec, execReq, heffect]

/-! ### A wait that goes on -/

/-- The wait until `deadline` goes on, or goes on when the node's response has ended; R174, R180. -/
def Node.WaitsOn (n : Node) (deadline : Nat) : Prop :=
  n.act = .waiting deadline ∨ n.isTransmitting = true ∧ n.ending = .close (.waiting deadline)

/-- A closed transmission gives a wait back: at once when it is empty, else when it has ended. -/
theorem Node.transmit_waitsOn (n : Node) (segs : List Seg) (deadline : Nat) :
    (n.transmit segs (.waiting deadline)).WaitsOn deadline := by
  cases segs with
  | nil => exact .inl rfl
  | cons g rest => exact .inr ⟨rfl, rfl⟩

section

variable {n : Node} {deadline : Nat}

/-- Of the outcomes of a decoder step only a match interrupts a wait; R180. -/
theorem Node.edge_waitsOn (hact : n.act = .waiting deadline) (par : Config) (level : Level) :
    (n.edge par level).WaitsOn deadline := by
  unfold Node.edge
  cases n.edgeLabel par level with
  | matched =>
    rw [Node.onMatch_eq, hact]
    exact Node.transmit_waitsOn _ _ _
  | glitch | sync | skip | bit | missed | captured => exact .inl hact

theorem Node.onTransition_waitsOn (hact : n.act = .waiting deadline) (par : Config) (level : Level) :
    (n.onTransition par level).WaitsOn deadline := by
  rcases n.takeInterrupt_cases par (Node.edge par level) with ⟨_, h⟩ | ⟨_, _, h⟩ | ⟨_, _, h⟩ <;>
    rw [Node.onTransition, h]
  · exact Node.edge_waitsOn hact par level
  · rcases n.maskEdge_cases par with ⟨_, h⟩ | ⟨_, h⟩ <;> rw [h] <;> exact .inl hact
  · exact .inl hact

theorem Node.takePending_waitsOn (hact : n.act = .waiting deadline) (par : Config) (level : Level) :
    (n.takePending par level).WaitsOn deadline := by
  rcases n.takePending_cases par level with ⟨_, h⟩ | ⟨_, h⟩ <;> rw [h]
  · exact Node.edge_waitsOn (n := n.clearPending) hact par level
  · exact .inl hact

theorem Node.applyChange_waitsOn (hact : n.act = .waiting deadline) : n.applyChange.WaitsOn deadline := by
  rcases n.applyChange_cases with ⟨_, _, _, _, h⟩ | ⟨_, h⟩ <;> rw [h] <;> exact .inl hact

theorem Node.finishTransmission_waitsOn (hact : n.act = .waiting deadline) :
    n.finishTransmission.WaitsOn deadline := by
  rcases n.finishTransmission_cases with ⟨_, _, hsend, _⟩ | ⟨_, h⟩
  · cases hact.symm.trans hsend
  · rw [h]
    exact .inl hact

/-- At the end of answered waits, a wait ends with `incoming` when the flag is set, and else goes on; R174, R175. -/
theorem Node.takeAnswer_of_waiting (hact : n.act = .waiting deadline) :
    n.takeAnswer.WaitsOn deadline ∨
      n.pay.receivedFlag = true ∧ n.takeAnswer = { n with
        act := .idle, result := some n.pay.incoming, pay := { n.pay with receivedFlag := false } } := by
  rcases n.takeAnswer_cases with ⟨hans, h⟩ | ⟨_, h⟩
  · exact .inr ⟨(n.answered_iff.mp hans).1, h⟩
  · rw [h]
    exact .inl (.inl hact)

/-- At a deadline test, a wait ends with 0 when it has timed out, and else goes on; R174, R176. -/
theorem Node.timeOut_of_waiting (hact : n.act = .waiting deadline) :
    n.timeOut.WaitsOn deadline ∨
      n.pay.receivedFlag = false ∧ deadline ≤ n.clock ∧
        n.timeOut = { n with act := .idle, result := some 0 } := by
  rcases n.timeOut_cases with ⟨htimed, h⟩ | ⟨_, h⟩
  · obtain ⟨hflag, d, hd, hle⟩ := n.timedOut_iff.mp htimed
    cases hact.symm.trans hd
    exact .inr ⟨hflag, hle, h⟩
  · rw [h]
    exact .inl (.inl hact)

end

/-! ### One step of a waiting node -/

/-- The event is a deadline test. -/
def State.TestsDeadlines (s : State) : Prop := s.port = none ∧ (s.phase = .yield ∨ s.phase = .timeout)

/-- How one step treats a node in a wait: the wait goes on, or ends with the value received, or ends with 0 in a
deadline test. -/
inductive WaitStep (s : State) (n : Node) (deadline : Nat) : Node → Prop where
  | waitsOn {m : Node} (h : m.WaitsOn deadline) : WaitStep s n deadline m
  | answered (hflag : n.pay.receivedFlag = true) : WaitStep s n deadline { n with
      act := .idle, result := some n.pay.incoming, pay := { n.pay with receivedFlag := false } }
  | timedOut (hflag : n.pay.receivedFlag = false) (hle : deadline ≤ n.clock) (htest : s.TestsDeadlines) :
      WaitStep s n deadline { n with act := .idle, result := some 0 }

/-- A node after one node has changed: it is that node, changed, or it is as before. -/
theorem State.node_of_atNode {s : State} {j k : Nat} {f : Node → Node} {n m : Node} (hn : s.nodes[k]? = some n)
    (hm : (s.atNode j f).nodes[k]? = some m) : (j = k ∧ m = f n) ∨ m = n := by
  rw [State.atNode_nodes, List.getElem?_modify, hn, Option.map_eq_map, Option.map_some, Option.some.injEq] at hm
  split at hm
  next hj => exact .inl ⟨hj, hm.symm⟩
  next => exact .inr hm.symm

/-- How an event treats a node in a wait. -/
theorem State.event_waitStep {s : State} (hport : s.port = none) {k : Nat} {n m : Node} {deadline : Nat}
    (hn : s.nodes[k]? = some n) (hm : (s.event s.phase).nodes[k]? = some m) (hact : n.act = .waiting deadline) :
    WaitStep s n deadline m := by
  have same (h : s.nodes[k]? = some m) : WaitStep s n deadline m := by
    cases hn.symm.trans h
    exact .waitsOn (.inl hact)
  have mapped {f : Node → Node} {wire : Level} (h : ({ s with wire := wire }.mapNodes f).nodes[k]? = some m) :
      m = f n := by
    have hn' : { s with wire := wire }.nodes[k]? = some n := hn
    rw [State.mapNodes_nodes, List.getElem?_map, hn', Option.map_some, Option.some.injEq] at h
    exact h.symm
  have tested (htest : s.TestsDeadlines) : WaitStep s n deadline n.timeOut := by
    rcases Node.timeOut_of_waiting hact with h | ⟨hflag, hle, h⟩
    · exact .waitsOn h
    · rw [h]
      exact .timedOut hflag hle htest
  cases hph : s.phase <;> rw [hph] at hm
  case issue | quiet => exact same hm
  case stimulus | command => exact same (by rwa [State.event, s.present_nodes] at hm)
  case wire => exact mapped hm ▸ .waitsOn (Node.onTransition_waitsOn hact _ _)
  case pending => exact mapped hm ▸ .waitsOn (Node.takePending_waitsOn hact _ _)
  case change => exact mapped hm ▸ .waitsOn (Node.applyChange_waitsOn hact)
  case finish => exact mapped hm ▸ .waitsOn (Node.finishTransmission_waitsOn hact)
  case advance => exact mapped (wire := s.wire) hm ▸ .waitsOn (.inl hact)
  case answer =>
    rw [mapped hm]
    rcases Node.takeAnswer_of_waiting hact with h | ⟨hflag, h⟩
    · exact .waitsOn h
    · rw [h]
      exact .answered hflag
  case timeout => exact mapped hm ▸ tested ⟨hport, .inr hph⟩
  case drive =>
    rw [State.event] at hm
    split at hm
    · exact same (by rwa [s.present_nodes] at hm)
    · exact same hm
  case yield =>
    rw [State.event] at hm
    split at hm
    next j _ =>
      rcases State.node_of_atNode hn hm with ⟨_, rfl⟩ | rfl
      · exact tested ⟨hport, .inl hph⟩
      · exact same hn
    next => exact same hm

/-- A waiting node runs no operation but a receive transition: it is neither idle nor at a symbol boundary; R39,
R206. -/
theorem exec_of_waiting {i : Instr} {s t : State} {deadline : Nat} (h : exec i s = .next t)
    (hact : s.self.act = .waiting deadline) : ∃ level, i = .edge level := by
  have busy : s.self.act ≠ .idle := by simp [hact]
  cases i with
  | edge level => exact ⟨level, rfl⟩
  | bit1 | bit0 | wake | release | addr a | data d =>
    rw [symbolsAreRefusedWhereNoneMayBegin s _ (by simp) (.inl ⟨deadline, hact⟩)] at h
    cases h
  | init rx tx a role | setp v | req g | xmit v w =>
    rw [hostOperationsAreRefusedUnlessIdle s _ (by simp) busy] at h
    cases h

/-- The operation that a step takes from the port runs at its node, and changes that node alone. -/
theorem step_at_port_runs {s t : State} {q : Issue} (hq : s.port = some q) (h : step s = .next t) :
    ∃ i n, decode q.code = .ok i ∧ s.nodes[q.node]? = some n ∧
      exec i { s with self := n } = .next { s with self := nodeEffect s.par i n } ∧
      t = s.takePort.atNode q.node (nodeEffect s.par i) := by
  rcases step_cases s t h with ⟨hport, _⟩ | ⟨q', i, f, u, hq', hdec, hfocus, hx, rfl⟩
  · cases hq.symm.trans hport
  · cases hq.symm.trans hq'
    obtain ⟨hnode, hpar, hback⟩ := s.takePort.focus_eq_some q.node f hfocus
    refine ⟨i, f.self, hdec, hnode, exec_next_of_same_node hpar.symm rfl hx, ?_⟩
    rw [exec_eq_of_next hx, hback, hpar, State.takePort_par]

/-- How a step treats a node in a wait. -/
theorem step_waitStep {s t : State} (h : step s = .next t) {k : Nat} {n m : Node} {deadline : Nat}
    (hn : s.nodes[k]? = some n) (hm : t.nodes[k]? = some m) (hact : n.act = .waiting deadline) :
    WaitStep s n deadline m := by
  cases hport : s.port with
  | none =>
    rw [step_of_no_port s hport] at h
    cases h
    exact State.event_waitStep hport hn hm hact
  | some q =>
    obtain ⟨i, n', _, hn', hx, rfl⟩ := step_at_port_runs hport h
    rcases State.node_of_atNode (s := s.takePort) hn hm with ⟨rfl, rfl⟩ | rfl
    · cases hn.symm.trans hn'
      obtain ⟨level, rfl⟩ := exec_of_waiting hx hact
      exact .waitsOn (Node.onTransition_waitsOn hact _ _)
    · exact .waitsOn (.inl hact)

/-- Before a deadline is tested the instant is settled, no wait is answered and no due operation would change a pin;
R211, log entry 8. -/
theorem State.TestsDeadlines.settled {s : State} (h : s.TestsDeadlines) :
    s.Settled ∧ s.NoWaitAnswered ∧ s.driver = none := by
  obtain ⟨hport, hphase⟩ := h
  have hset : s.Settled := by
    by_contra hunset
    rcases s.phase_of_unsettled hport hunset with
      ⟨_, he⟩ | ⟨_, _, he⟩ | ⟨_, _, he⟩ | ⟨_, _, _, he⟩ | ⟨_, _, _, _, he⟩ <;> simp [he] at hphase
  rw [s.phase_of_settled hset] at hphase
  cases hans : s.nodes.any Node.answered
  · cases hdrv : s.driver
    · exact ⟨hset, s.noWaitAnswered_iff.mpr hans, rfl⟩
    · simp [hans, hdrv] at hphase
  · simp [hans] at hphase

/-! ### What a due operation leaves of the wire -/

/-- Where a node's due operations would not change its pin, the first of them does not. -/
theorem State.exec_tx_of_not_wouldDrive {s : State} {k : Nat} {n : Node} {a : Arrival} {i : Instr} {v : State}
    (hkeeps : s.wouldDrive k n = false) (hfirst : s.inbox.find? (s.dueAt k) = some a)
    (hdec : decode a.issue.code = .ok i) (hx : exec i { s with self := n } = .next v) : v.self.tx = n.tx := by
  rw [← List.head?_filter] at hfirst
  obtain ⟨rest, hdue⟩ := List.head?_eq_some_iff.mp hfirst
  simp only [State.wouldDrive, hdue, List.map_cons, State.changesPin, hdec, hx, Bool.or_eq_false_iff] at hkeeps
  simpa using hkeeps.1

/-- No operation but `INIT` binds a node to its pins. -/
theorem nodeEffect_cfgSet (par : Config) (i : Instr) (n : Node) :
    (∃ rx tx a role, i = .init rx tx a role) ∨ (nodeEffect par i n).cfgSet = n.cfgSet := by
  cases i with
  | init rx tx a role => exact .inl ⟨rx, tx, a, role, rfl⟩
  | edge level => exact .inr (n.onTransition_keepsFrame par level).cfgSet
  | bit1 | bit0 | wake | addr a | data d => exact .inr (n.drive_keepsFrame _ .hold).cfgSet
  | req g => exact .inr (Node.transmit_keepsFrame _ _ _).cfgSet
  | xmit v w => exact .inr (n.transmit_keepsFrame _ _).cfgSet
  | release | setp v => exact .inr rfl

/-- An operation that leaves the pin as it is leaves what the node drives as it is: `INIT`, which makes the pin an
output, lowers it. -/
theorem nodeEffect_drivesHigh {par : Config} {i : Instr} {n : Node} (htx : (nodeEffect par i n).tx = n.tx) :
    (nodeEffect par i n).drivesHigh = n.drivesHigh := by
  rw [Node.drivesHigh, Node.drivesHigh, htx]
  rcases nodeEffect_cfgSet par i n with ⟨rx, tx, a, role, rfl⟩ | hset
  · have hlow : n.tx = false := htx.symm
    rw [hlow, Bool.and_false, Bool.and_false]
  · rw [hset]

/-- The wire keeps its level when one node changes and still drives what it drove. -/
theorem State.atNode_busLevel {s : State} {k : Nat} {n : Node} {f : Node → Node} (hn : s.nodes[k]? = some n)
    (hf : (f n).drivesHigh = n.drivesHigh) : (s.atNode k f).busLevel = s.busLevel := by
  have hlevels : (s.atNode k f).nodes.map Node.drivesHigh = s.nodes.map Node.drivesHigh := by
    refine List.ext_getElem? fun j => ?_
    rw [State.atNode_nodes, List.getElem?_map, List.getElem?_map, List.getElem?_modify]
    by_cases hj : k = j
    · subst hj
      simp [hn, hf]
    · simp [hj]
  have hany (l : List Node) : l.any Node.drivesHigh = (l.map Node.drivesHigh).any id := by
    rw [List.any_map, Function.id_comp]
  rw [State.busLevel, State.busLevel, hany, hany, hlevels]

/-- With a deadline test next, the first operation due at a node would not change the wire. -/
theorem State.TestsDeadlines.wire_of_due {s u : State} (h : s.TestsDeadlines) {a : Arrival}
    (hfirst : s.inbox.find? (fun b => decide (b.issue.node = a.issue.node ∧ b.time ≤ s.now)) = some a)
    (hstep : step { s with port := some a.issue } = .next u) : u.busLevel = s.wire := by
  obtain ⟨⟨⟨_, hwire, _⟩, _, hnoedge, _⟩, _, hdriver⟩ := h.settled
  obtain ⟨i, n, hdec, hn, hx, rfl⟩ := step_at_port_runs rfl hstep
  have hquiet : s.wouldDrive a.issue.node n = false := s.firstNode_none _ hdriver _ n hn
  have hx' := exec_next_of_same_node (s := { s with port := some a.issue, self := n })
    (s' := { s with self := n }) rfl rfl hx
  have htx := State.exec_tx_of_not_wouldDrive hquiet ((State.find?_dueAt hnoedge _).trans hfirst) hdec hx'
  exact (State.atNode_busLevel (s := { s with port := none }) hn (nodeEffect_drivesHigh htx)).trans hwire.symm

/-! ### The ends of a wait -/

/-- In a settled instant, answered waits end next. -/
theorem step_of_answered {s : State} (hset : s.Settled) {n : Node} (hn : n ∈ s.nodes) (hans : n.answered = true) :
    step s = .next s.takeAnswers := by
  have hphase : s.phase = .answer := by
    rw [s.phase_of_settled hset, if_pos (List.any_eq_true.mpr ⟨n, hn, hans⟩)]
  rw [step_of_no_port s hset.1.1, hphase, State.event]

/-- In a settled instant with no wait answered and nothing presented, waits that timed out end next. -/
theorem step_of_timedOut {s : State} (hset : s.Settled) (hwait : s.NoWaitAnswered) (hnone : s.NothingPresented)
    {n : Node} (hn : n ∈ s.nodes) (htimed : n.timedOut = true) : step s = .next s.timeOuts := by
  obtain ⟨hdrv, hyld⟩ := s.no_driver_of_nothing hnone
  have hany := List.any_eq_true.mpr ⟨n, hn, htimed⟩
  have hphase : s.phase = .timeout := by
    simp [s.phase_of_settled hset, s.noWaitAnswered_iff.mp hwait, hdrv, hyld, hany]
  rw [step_of_no_port s hset.1.1, hphase, State.event]

theorem Node.takeAnswer_of_answered {n : Node} (h : n.answered = true) :
    n.takeAnswer = { n with
      act := .idle, result := some n.pay.incoming, pay := { n.pay with receivedFlag := false } } := if_pos h

theorem Node.timeOut_of_timedOut {n : Node} (h : n.timedOut = true) :
    n.timeOut = { n with act := .idle, result := some 0 } := if_pos h

/-- Settles O45: the two ends are the next events of their instants, and `step_waitStep` and
`State.TestsDeadlines.settled` say that a step ends a wait in no other way. -/
theorem waitEndsWithTheValueOrWithZero : Obligations.WaitEndsWithTheValueOrWithZero := by
  refine ⟨fun s n k deadline hset hk hact hflag => ?_, fun s n k deadline hset hwait hnone hk hact hle => ?_,
    fun s t n m k deadline h hn hm hact => ?_,
    fun s t u n m k deadline a h hn hm hact hflag hidle hfirst hstep => ?_⟩
  · have hans := n.answered_iff.mpr ⟨hflag, deadline, hact⟩
    refine ⟨_, step_of_answered hset (List.mem_of_getElem? hk) hans, ?_⟩
    rw [State.takeAnswers, State.mapNodes_nodes, List.getElem?_map, hk, Option.map_some,
      Node.takeAnswer_of_answered hans]
  · have hn := List.mem_of_getElem? hk
    have htimed := n.timedOut_iff.mpr ⟨hwait n hn deadline hact, deadline, hact, hle⟩
    refine ⟨_, step_of_timedOut hset hwait hnone hn htimed, ?_⟩
    rw [State.timeOuts, State.mapNodes_nodes, List.getElem?_map, hk, Option.map_some,
      Node.timeOut_of_timedOut htimed]
  · cases step_waitStep h hn hm hact with
    | waitsOn hon => exact hon.imp_right fun hsend => .inr (.inr hsend)
    | answered hflag => exact .inr (.inl ⟨hflag, rfl⟩)
    | timedOut hflag hle htest =>
      obtain ⟨hset, hwait, _⟩ := htest.settled
      exact .inr (.inr (.inl ⟨hflag, hle, hset, hwait, rfl⟩))
  · cases step_waitStep h hn hm hact with
    | waitsOn hon =>
      rcases hon with hwaits | ⟨hsend, _⟩
      · cases hidle.symm.trans hwaits
      · obtain ⟨_, hsend⟩ := m.isTransmitting_iff.mp hsend
        cases hidle.symm.trans hsend
    | answered hreceived => cases hflag.symm.trans hreceived
    | timedOut _ _ htest => exact htest.wire_of_due hfirst hstep

/-! ### A wait on a lone wire -/

/-- A node alone on the wire, its pin low and nothing scheduled, waits until `deadline`. -/
structure State.WaitsAlone (s : State) (deadline : Nat) : Prop where
  alone : s.Alone
  act : s.self.act = .waiting deadline
  sched : s.self.sched = []

namespace State.WaitsAlone

variable {s : State} {deadline : Nat}

theorem settled (h : s.WaitsAlone deadline) : s.Settled := by
  obtain ⟨⟨hpeers, hinbox, hport, hwire, hpend⟩, hact, hsched⟩ := h
  have hnodes := s.nodes_of_no_peers hpeers
  refine ⟨⟨hport, hwire, ?_⟩, ?_, ?_, ?_⟩
  · rw [hnodes, List.forall_mem_singleton]
    exact fun _ => hpend
  · simp [State.NoChangeDue, hnodes, hsched]
  · simp [State.NoEdgeDue, hinbox]
  · simp [State.NoTransmissionOver, hnodes, hact]

/-- With the flag set the wait ends at once, with the value that stands in `incoming`; R175, R179. -/
theorem step_answer (h : s.WaitsAlone deadline) (hflag : s.self.pay.receivedFlag = true) :
    step s = .next { s with self := { s.self with
      act := .idle, result := some s.self.pay.incoming, pay := { s.self.pay with receivedFlag := false } } } := by
  have hans := s.self.answered_iff.mpr ⟨hflag, deadline, h.act⟩
  rw [step_of_answered h.settled List.mem_cons_self hans, State.takeAnswers,
    State.mapNodes_of_no_peers h.alone.1, Node.takeAnswer_of_answered hans]

theorem noWaitAnswered (h : s.WaitsAlone deadline) (hflag : s.self.pay.receivedFlag = false) :
    s.NoWaitAnswered := by
  simp [State.NoWaitAnswered, s.nodes_of_no_peers h.alone.1, hflag]

/-- Without the flag the wait ends with 0 when the deadline has come; R174, R176. -/
theorem step_timeOut (h : s.WaitsAlone deadline) (hflag : s.self.pay.receivedFlag = false)
    (hle : deadline ≤ s.self.clock) :
    step s = .next { s with self := { s.self with act := .idle, result := some 0 } } := by
  have hnone : s.NothingPresented := by simp [State.NothingPresented, h.alone.2.1]
  have htimed := s.self.timedOut_iff.mpr ⟨hflag, deadline, h.act, hle⟩
  rw [step_of_timedOut h.settled (h.noWaitAnswered hflag) hnone List.mem_cons_self htimed, State.timeOuts,
    State.mapNodes_of_no_peers h.alone.1, Node.timeOut_of_timedOut htimed]

/-- Without the flag the wait runs on to its deadline. -/
theorem reaches_deadline {d : Nat} (h : s.WaitsAlone (s.self.clock + d))
    (hflag : s.self.pay.receivedFlag = false) : s.Reaches (s.tick d) := by
  rcases Nat.eq_zero_or_pos d with rfl | hpos
  · rw [State.tick_of_no_peers h.alone.1]
    exact .refl
  · have hd : s.self.delays = [d] := by simp [Node.delays, h.sched, h.act]
    have hahead : s.NoDeadlineReached := by
      simp [State.NoDeadlineReached, s.nodes_of_no_peers h.alone.1, h.act, hpos]
    exact State.reaches_tick h.alone.1 h.alone.2.1 h.settled.1 (h.noWaitAnswered hflag) hahead hd hpos

/-- Without the flag the wait runs to its deadline and ends with 0. -/
theorem reaches_zero {d : Nat} (h : s.WaitsAlone (s.self.clock + d)) (hflag : s.self.pay.receivedFlag = false) :
    s.Reaches { s with
      now := s.now + d
      self := { s.self with clock := s.self.clock + d, act := .idle, result := some 0 } } := by
  have htick := h.reaches_deadline hflag
  rw [State.tick_of_no_peers h.alone.1] at htick
  have h' : State.WaitsAlone { s with now := s.now + d, self := s.self.tick d } (s.self.clock + d) := { h with }
  exact htick.tail (h'.step_timeOut hflag (Nat.le_refl _))

end State.WaitsAlone

/-! ### A request on a lone wire -/

/-- The state in which the wait of a request that is issued in `s` begins: the address frame is sent, the line is
released and interrupts are enabled; R171, R173. -/
def State.awaitingReply (s : State) : State :=
  let sent := s.par.pulsePeriod + s.par.bitPeriod * s.par.addrW
  { s with
    now := s.now + sent
    self := { s.self with
      clock := s.self.clock + sent
      ie := true, act := .waiting (s.self.clock + sent + s.par.reqTimeout)
      sched := [], ending := .hold, result := none
      maskedThrough := some (s.self.clock + sent) } }

/-- `State.Alone.transmit_reaches` with the state at the end written out. -/
theorem State.Alone.transmit_reaches_low {s : State} (halone : s.Alone) (hpolicy : s.par.maskedEdges = .drop)
    (htx : s.self.tx = false) (segs : List Seg) (next : Activity) :
    State.Reaches { s with self := s.self.transmit segs next } { s with
      now := s.now + duration segs
      self := { s.self with
        clock := s.self.clock + duration segs
        ie := true, act := next, sched := [], ending := .hold
        maskedThrough := some (s.self.clock + duration segs) } } := by
  have hreach := halone.transmit_reaches hpolicy htx segs next
  rw [Node.closeTransmission_of_low (n := s.self.tick _) htx] at hreach
  exact hreach

/-- The request of a lone node with its pin low sends its address under `drop`, and its wait begins. -/
theorem State.Alone.request_reaches {s : State} (halone : s.Alone) (hw : s.par.wf = true)
    (hpolicy : s.par.maskedEdges = .drop) (htx : s.self.tx = false) (g : Nat) :
    State.Reaches { s with self := s.self.request s.par g } s.awaitingReply := by
  have hclear : State.Alone { s with self := { s.self with result := none } } := halone
  have hreach := hclear.transmit_reaches_low hpolicy htx (requestSegs s.par g)
    (.waiting (s.self.clock + duration (requestSegs s.par g) + s.par.reqTimeout))
  rw [duration_requestSegs_wf s.par hw] at hreach
  rw [Node.request, duration_requestSegs_wf s.par hw]
  exact hreach

theorem State.Alone.waitsAlone_awaitingReply {s : State} (halone : s.Alone) :
    s.awaitingReply.WaitsAlone (s.awaitingReply.self.clock + s.par.reqTimeout) := ⟨halone, rfl, rfl⟩

/-- Settles O56: the address is sent, and the wait that begins then runs to its deadline. -/
theorem loneRequestWithoutReplyReturnsZero : Obligations.LoneRequestWithoutReplyReturnsZero := by
  intro s g halone hw hpolicy hidle htx hflag
  have hreach : State.Reaches _ _ :=
    (halone.request_reaches hw hpolicy htx g).trans (halone.waitsAlone_awaitingReply.reaches_zero hflag)
  obtain ⟨k, hrun⟩ := hreach.exists_run
  refine ⟨_, k, exec_req_of_idle hidle g, hrun.trans ?_⟩
  simp only [State.awaitingReply, hidle, Nat.add_assoc]

/-- Settles O57: the address is sent, and the wait that begins then ends at once, for the flag is set from before. -/
theorem loneRequestReturnsAStaleValue : Obligations.LoneRequestReturnsAStaleValue := by
  intro s g halone hw hpolicy hidle htx hflag
  have hreach : State.Reaches _ _ :=
    (halone.request_reaches hw hpolicy htx g).tail (halone.waitsAlone_awaitingReply.step_answer hflag)
  obtain ⟨k, hrun⟩ := hreach.exists_run
  refine ⟨_, k, exec_req_of_idle hidle g, hrun.trans ?_⟩
  simp only [State.awaitingReply, hidle, Nat.add_assoc]

end Sys2Proof.Machine
end

section
/-! SUPPORT. What `SETP` and `INIT` make of an idle node; then the statements on the payload setter and on
initialisation (spec/44_payload_setter_and_init.md R190 to R196). -/

namespace Sys2Proof.Machine

open Sys2Proof

/-- An idle node does not refuse a host operation; R39, R206. -/
theorem State.hostOp_of_idle {s : State} (hidle : s.self.act = .idle) (f : Node → Node) :
    s.hostOp f = .next (s.onSelf f) :=
  (s.hostOp_next_or_busy f).resolve_right fun h => h.1 hidle

/-- Disabling and then enabling interrupts leaves them enabled, so the critical section shows in `ie` only; R190,
R191. -/
theorem Node.setPayload_eq (v : Value) (n : Node) :
    n.setPayload v = { n with pay := { n.pay with outgoing := v }, ie := true } := rfl

/-- `INIT` keeps the last result of the node it runs on (log entry 6) and nothing else; R194, R196. -/
theorem Node.initialise_eq (rxPin txPin addr : Nat) (role : Role) (n : Node) :
    n.initialise rxPin txPin addr role = {
      cfg := { receivePin := rxPin, transmitPin := txPin, ownAddress := BitVec.ofNat 4 addr, role := role }
      cfgSet := true
      dec := { lastEdgeTimestamp := 0, bitsAccumulated := 0, ignoreRemaining := 0, shiftRegister := 0 }
      pay := { outgoing := 0, incoming := 0, receivedFlag := false }
      ie := true, tx := false, pend := false, act := .idle, clock := 0
      sched := [], ending := .hold, result := n.result, maskedThrough := none } := rfl

/-- Settles O24: an idle node runs `SETP`, which writes `outgoing` and `ie` of that node. -/
theorem setpReplacesOutgoing : Obligations.SetpReplacesOutgoing := by
  intro s v hidle
  rw [exec, execSetp, State.hostOp_of_idle hidle, State.onSelf, Node.setPayload_eq]

/-- Settles O25: an idle node runs `INIT`, which writes every field of that node but the last result. -/
theorem initGivesTheResetState : Obligations.InitGivesTheResetState := by
  intro s rx tx a role hidle
  rw [exec, execInit, State.hostOp_of_idle hidle, State.onSelf, Node.initialise_eq]

end Sys2Proof.Machine
end

section
/-! SUPPORT. The frame of an operation, an operation presented to a peer, and what is next when the wire has changed;
then the statements on whom an operation and an event of the bus reach (spec/60_exceptions.md R200 to R225). -/

namespace Sys2Proof.Machine

open Sys2Proof

/-! ### The node an operation acts on -/

/-- Settles O10: whatever the operation, all that it writes is its effect on the state's own node. -/
theorem operationsTouchOnlyTheirNode : Obligations.OperationsTouchOnlyTheirNode := by
  intro i s t h
  rw [exec_eq_of_next h]
  rfl

/-- Changing the node of a peer that is there replaces that peer. -/
theorem State.atNode_of_peer {s : State} {k : Nat} {n : Node} (hn : s.peers[k]? = some n) (g : Node → Node) :
    s.atNode (k + 1) g = { s with peers := s.peers.set k (g n) } := by
  rw [State.atNode, List.modify_eq_set_getElem?, hn]
  rfl

/-- An operation that is not refused at the node brought to the front changes that node by its effect, and the node
goes back to its place; R220, R221. -/
theorem runOn_of_exec {k : Nat} {i : Instr} {s f u : State} (hf : s.focus k = some f) (hx : exec i f = .next u) :
    runOn k i s = .next (s.atNode k (nodeEffect s.par i)) := by
  obtain ⟨_, hpar, hback⟩ := s.focus_eq_some k f hf
  simp only [runOn, hf, hx]
  rw [exec_eq_of_next hx, hpar, hback]

/-- Settles O7: whether an operation is refused and what it makes of a node depend on the parameters and that node
alone, so the peer brought to the front runs it as the state's own node would. -/
theorem stepRunsAPeersOperationOnThatPeer : Obligations.StepRunsAPeersOperationOnThatPeer := by
  intro s k c i n u hq hd hn hx
  rcases s.takePort.focus_succ_cases k with ⟨hnone, _⟩ | ⟨n', hn', hf⟩
  · cases hn.symm.trans hnone
  · cases hn.symm.trans hn'
    have hrun := runOn_of_exec hf (exec_next_of_same_node (s := { s.takePort with self := n }) rfl rfl hx)
    rw [step_of_port s _ hq, runPort, hd]
    refine hrun.trans ?_
    rw [State.atNode_of_peer hn', exec_eq_of_next hx]
    rfl

/-! ### The block's own events -/

/-- Settles O8: with the port empty a step is an event, and an event has no refusal. -/
theorem onlyAPresentedOperationCanStop : Obligations.OnlyAPresentedOperationCanStop :=
  fun s hport => ⟨s.event s.phase, step_of_no_port s hport⟩

/-- A wire that has changed is dealt with before anything else but the port; R224, log entry 8. -/
theorem State.phase_of_changedWire {s : State} (hport : s.port = none) (hwire : s.wire ≠ s.busLevel) :
    s.phase = .wire := by
  simp [State.phase, hport, hwire]

/-- Settles O43: the next event is the round of edges, at the level of the wire as it is now. -/
theorem changedWireIsShownToEveryNode : Obligations.ChangedWireIsShownToEveryNode := by
  intro s hport hwire
  have hstep : step s = .next s.wireRound := by
    rw [step_of_no_port s hport, State.phase_of_changedWire hport hwire, State.event]
  exact ⟨s.wireRound, hstep, rfl, State.mapNodes_nodes _ _, rfl, rfl, rfl, hport⟩

end Sys2Proof.Machine
end

section
/-! SUPPORT. The statement on the power-on state (spec/70_reset_and_hazards.md R240, R243). -/

namespace Sys2Proof.Machine

open Sys2Proof

/-- Settles O54: the node of the reset state is `Node.powerOn`, and each conjunct is one of its fields as defined. -/
theorem powerOnStateOfANode : Obligations.PowerOnStateOfANode := by
  have hself : State.reset.self = Node.powerOn := rfl
  rw [Obligations.PowerOnStateOfANode, hself]
  exact ⟨rfl, rfl, rfl, rfl, rfl, rfl, rfl, rfl⟩

end Sys2Proof.Machine
end
